-- ==== Sys2Proof/Word.lean ====
section
/-! DEFINITION. The word types of the konfig1 VM core: every width the spec fixes has one name here. -/

namespace Sys2Proof

/-- One byte of the instruction image (00_scope R14). -/
abbrev Byte := BitVec 8

/-- The accumulator and one data-memory cell: unsigned, 29 bits (00_scope R8, R9). -/
abbrev Word := BitVec 29

/-- The 29-bit constant operand of format F5 (30_encoding R55). -/
abbrev Const := BitVec 29

/-- The 17-bit cell address operand of format F3 (20_memory R41, 30_encoding R55). -/
abbrev Addr := BitVec 17

/-- The 5-bit opcode field (00_scope R6, `OPC_BITS`). -/
abbrev OpcodeBits := BitVec 5

end Sys2Proof
end

