-- ==== Sys2Proof/Syntax.lean ====
section
/-! DEFINITION. The instruction set: one constructor per row of spec/opcode_table.json, in the table's order
(00_scope R2, 30_encoding R59). The operand's range `[0, 2^W)` is its type. -/

namespace Sys2Proof

/-- The closed four-opcode instruction set (00_scope R2). -/
inductive Instr where
  /-- LOAD_CONST, opcode 14 (40_data_movement R85). -/
  | loadConst (imm : Const)
  /-- MEMORY_WRITE, opcode 15 (40_data_movement R87). -/
  | memoryWrite (addr : Addr)
  /-- MIN_OP, opcode 20 (41_arithmetic R88). -/
  | minOp (addr : Addr)
  /-- MEMORY_READ, opcode 25 (40_data_movement R86). -/
  | memoryRead (addr : Addr)
deriving DecidableEq, Repr

end Sys2Proof
end

