-- ==== Sys2Proof/WellFormed.lean ====
section
/-! DEFINITION. Well-formedness of an instruction (00_scope R16): the pair of an opcode and an operand as the
toolchain meets it, before it is checked, and the two checks that make it an instruction (30_encoding R70). -/

namespace Sys2Proof

/-- An unchecked pair of an opcode value and an operand value (30_encoding R69: the arguments of `encode`). -/
structure RawInstr where
  opcode : Nat
  operand : Int
deriving DecidableEq, Repr

/-- The opcode is one of the four defined values (30_encoding R59, R70). -/
def RawInstr.opcodeAssigned (r : RawInstr) : Bool :=
  r.opcode == 14 || r.opcode == 15 || r.opcode == 20 || r.opcode == 25

/-- The operand fits the width of its opcode, 29 bits for opcode 14 and 17 bits for the others (00_scope R6, R16). -/
def RawInstr.operandFits (r : RawInstr) : Bool :=
  decide (0 ≤ r.operand) && decide (r.operand < if r.opcode = 14 then 2 ^ 29 else 2 ^ 17)

/-- `0 ≤ operand < 2^W(opcode)` for an assigned opcode (00_scope R16). -/
def RawInstr.wellFormed (r : RawInstr) : Bool :=
  r.opcodeAssigned && r.operandFits

/-- The opcode and operand values of an instruction (00_scope R16). -/
def Instr.raw : Instr → RawInstr
  | .loadConst imm => { opcode := 14, operand := imm.toNat }
  | .memoryWrite addr => { opcode := 15, operand := addr.toNat }
  | .minOp addr => { opcode := 20, operand := addr.toNat }
  | .memoryRead addr => { opcode := 25, operand := addr.toNat }

/-- An instruction is well formed when its opcode and operand are; the operand types make every term so
(`Laws.Width`). -/
def Instr.wellFormed (i : Instr) : Bool :=
  i.raw.wellFormed

end Sys2Proof
end

