-- ==== Sys2Proof/Decode.lean ====
section
/-! DEFINITION. The opcode table, the decoder and the encoder (30_encoding R55 to R76). The decoder is total on
every image and every offset and rejects by name; the encoder is written from the same table. -/

namespace Sys2Proof

/-- The assigned opcodes (30_encoding R59). -/
inductive Opcode where
  | loadConst
  | memoryWrite
  | minOp
  | memoryRead
deriving DecidableEq, Repr

/-- The value of the opcode field (30_encoding R59). -/
def Opcode.code : Opcode → Nat
  | .loadConst => 14
  | .memoryWrite => 15
  | .minOp => 20
  | .memoryRead => 25

/-- Operand width `W` in bits (00_scope R6, 30_encoding R59). -/
def Opcode.width : Opcode → Nat
  | .loadConst => 29
  | .memoryWrite => 17
  | .minOp => 17
  | .memoryRead => 17

/-- Encoded length `LEN` in bytes (00_scope R6, 30_encoding R61). -/
def Opcode.len : Opcode → Nat
  | .loadConst => 5
  | .memoryWrite => 3
  | .minOp => 3
  | .memoryRead => 3

/-- The assigned opcode of a value; the other values are unassigned (30_encoding R60). -/
def opcodeOfValue : Nat → Option Opcode
  | 14 => some .loadConst
  | 15 => some .memoryWrite
  | 20 => some .minOp
  | 25 => some .memoryRead
  | _ => none

/-- The instruction of an opcode and the operand value assembled for it (30_encoding R68). -/
def Opcode.withOperand (op : Opcode) (v : Nat) : Instr :=
  match op with
  | .loadConst => .loadConst (BitVec.ofNat 29 v)
  | .memoryWrite => .memoryWrite (BitVec.ofNat 17 v)
  | .minOp => .minOp (BitVec.ofNat 17 v)
  | .memoryRead => .memoryRead (BitVec.ofNat 17 v)

/-- The opcode of an instruction. -/
def Instr.opcode : Instr → Opcode
  | .loadConst _ => .loadConst
  | .memoryWrite _ => .memoryWrite
  | .minOp _ => .minOp
  | .memoryRead _ => .memoryRead

/-- The operand value of an instruction. -/
def Instr.operand : Instr → Nat
  | .loadConst imm => imm.toNat
  | .memoryWrite addr => addr.toNat
  | .minOp addr => addr.toNat
  | .memoryRead addr => addr.toNat

/-- `LEN` of an instruction (00_scope R16). -/
def Instr.len (i : Instr) : Nat :=
  i.opcode.len

/-! ### Decoding -/

/-- Why a decode gives no instruction. -/
inductive DecodeError where
  /-- There is no byte at the offset: `pc ≥ L`, the fetch's end of program (10_state R27, log 19). -/
  | endOfImage
  /-- An unassigned opcode (30_encoding R63). -/
  | invalidOpcode (o : OpcodeBits)
  /-- Fewer bytes remain than the opcode's length (30_encoding R64). -/
  | truncatedInstruction (position : Nat)
deriving DecidableEq, Repr

/-- Decode step 1: `ImgByte(pc) & 0x1F` (30_encoding R62). -/
def opcodeField (b : Byte) : OpcodeBits :=
  (b &&& 0x1F#8).setWidth 5

/-- The bytes as one number, the first byte least significant (20_memory R42). -/
def littleEndian : List Byte → Nat
  | [] => 0
  | b :: rest => b.toNat + (littleEndian rest <<< 8)

/-- `(word >> 5) & (2^w - 1)`: the operand field, the padding above it dropped (30_encoding R65, R66). -/
def operandField (w word : Nat) : Nat :=
  (word >>> 5) &&& (2 ^ w - 1)

/-- The instruction word of `n` bytes at an offset (20_memory R42, 30_encoding R65). -/
def imageWord (image : List Byte) (pc n : Nat) : Nat :=
  littleEndian ((image.drop pc).take n)

/-- `decode(image, pc)`: the instruction and its length, or the error (30_encoding R62 to R65, in that order). -/
def decode (image : List Byte) (pc : Nat) : Except DecodeError (Instr × Nat) :=
  match image[pc]? with
  | none => .error .endOfImage
  | some byte0 =>
    match opcodeOfValue (opcodeField byte0).toNat with
    | none => .error (.invalidOpcode (opcodeField byte0))
    | some op =>
      if image.length < pc + op.len then
        .error (.truncatedInstruction pc)
      else
        .ok (op.withOperand (operandField op.width (imageWord image pc op.len)), op.len)

/-- The instructions found by decoding from `pc` and advancing by each length, to the end of the image or the
first decode error (30_encoding R76). `fuel` bounds the number of instructions. -/
def decodeProgram (image : List Byte) : (fuel pc : Nat) → Except DecodeError (List Instr)
  | 0, _ => .ok []
  | fuel + 1, pc =>
    match decode image pc with
    | .error .endOfImage => .ok []
    | .error e => .error e
    | .ok (i, n) =>
      match decodeProgram image fuel (pc + n) with
      | .error e => .error e
      | .ok is => .ok (i :: is)

/-! ### Encoding -/

/-- The `n` low bytes of a number, the least significant first (30_encoding R69). -/
def bytesOf : (n word : Nat) → List Byte
  | 0, _ => []
  | n + 1, word => BitVec.ofNat 8 word :: bytesOf n (word >>> 8)

/-- The bytes of `op | (v << 5)` (30_encoding R69). -/
def encodeFields (op : Opcode) (v : Nat) : List Byte :=
  bytesOf op.len (op.code ||| (v <<< 5))

/-- Why an opcode and an operand value have no encoding (30_encoding R70). -/
inductive EncodeError where
  | invalidOpcode
  | operandOutOfRange
deriving DecidableEq, Repr

/-- `encode(op, v)` on unchecked values: the opcode is checked first, and an operand is never truncated
(30_encoding R69, R70). -/
def encodeRaw (r : RawInstr) : Except EncodeError (List Byte) :=
  match opcodeOfValue r.opcode with
  | none => .error .invalidOpcode
  | some op =>
    if r.operand < 0 ∨ 2 ^ op.width ≤ r.operand then
      .error .operandOutOfRange
    else
      .ok (encodeFields op r.operand.toNat)

/-- The canonical bytes of an instruction, padding bits 0 (30_encoding R69, R71). -/
def encode (i : Instr) : List Byte :=
  encodeFields i.opcode i.operand

/-- A binary image: the encodings in program order (30_encoding R74). -/
def encodeProgram (is : List Instr) : List Byte :=
  is.flatMap encode

/-! ### The opcode table's words -/

/-- The bytes of a word of the opcode table, least significant first, zeros above `nbits` up to the longest
instruction. -/
def tableBytes (nbits w : Nat) : List Byte :=
  bytesOf (max ((nbits + 7) / 8) 5) (w % 2 ^ nbits)

/-- The instruction the decoder reads from a word of the opcode table; `none` where it refuses. -/
def decodeTableWord (nbits w : Nat) : Option Instr :=
  match decode (tableBytes nbits w) 0 with
  | .ok (i, _) => some i
  | .error _ => none

/-- The bytes of that instruction alone, without the zeros laid out behind it; all of them where the decoder
refuses. -/
def tableInstrBytes (nbits w : Nat) : List Byte :=
  match decode (tableBytes nbits w) 0 with
  | .ok (_, n) => (tableBytes nbits w).take n
  | .error _ => tableBytes nbits w

end Sys2Proof
end

