-- ==== Sys2Proof/Config.lean ====
section
/-! DEFINITION. The values the model names where the spec leaves a parameter open (00_scope R7, R10).
Only `State.reset` and the assembler's reference reading use them: the machine itself takes every parameter
as data of its state, so a statement about every state holds for every value of it. -/

namespace Sys2Proof.Config

/-- `MEM_CELLS` (`N`) of the reference configuration (00_scope R7). -/
def refMemCells : Nat := 1024

/-- DESIGN CHOICE, unsafe (log 6): `IMAGE_MAX_BYTES` in `State.reset`; no source gives a value (00_scope R10, D7). -/
def refImageMax : Nat := 1048576

/-- DESIGN CHOICE, unsafe (log 3): `ACC_INIT` in `State.reset`; the spec calls it a draw (10_state R36, D4). -/
def refAccInit : Word := 0

/-- DESIGN CHOICE, unsafe only through `State.reset` (log 4): what a cell that the memory does not list holds.
A reset writes every drawn cell value (10_state R36, D5), so no generality is lost by it. -/
def unlistedCell : Word := 0

/-- The assembler's comment delimiter of the reference toolchain (00_scope R10, D17). -/
def refCommentChar : Char := '#'

end Sys2Proof.Config
end

