-- ==== Sys2Proof/Machine/State.lean ====
section
/-! DEFINITION. The machine's state (10_state R18 to R25, R36, R38), its types, the reasons a step can stop, and
the state after reset. Plain data throughout. -/

namespace Sys2Proof.Machine

/-- The run status (10_state R22). -/
inductive Status where
  /-- After reset, before the host starts the run. -/
  | idle
  /-- The engine is stepping. -/
  | running
  /-- The engine reached the end of the image: terminal, success. -/
  | halted
  /-- A fault ended the run: terminal. -/
  | faulted
deriving DecidableEq, Repr

/-- A fault's kind with the information recorded for it (10_state R23, 60_exceptions R90). -/
inductive FaultKind where
  /-- Fewer bytes remain than the instruction needs; no information. -/
  | corruptImage
  /-- An unassigned opcode; the 5-bit opcode value. -/
  | invalidOpcode (opcode : OpcodeBits)
  /-- A cell address at or above `N`; the 17-bit address. -/
  | invalidAddress (addr : Addr)
deriving DecidableEq, Repr

/-- The fault record: the kind, its information, and `fault_pc` (10_state R23). -/
structure FaultRecord where
  kind : FaultKind
  faultPc : Nat
deriving DecidableEq, Repr

/-- A data-memory cell at its index. Cells are 29 bits wide and indivisible (20_memory R43), so the unit of
memory is the cell and not a byte (log 11). -/
abbrev MemCell := Nat × Word

/-- Data memory: the cells that differ from `Config.unlistedCell`, addresses strictly rising. -/
abbrev Memory := List MemCell

/-- The configuration of a run, fixed at reset (10_state R38): the image, `N` and the dump range. -/
structure RunConfig where
  /-- The binary image; `L` is its length (20_memory R40). -/
  image : List Byte
  /-- `N`, the number of data-memory cells (00_scope R7). -/
  memCells : Nat
  /-- `start` of the inclusive dump range (10_state R34). -/
  dumpStart : Nat
  /-- `end` of the inclusive dump range (10_state R34). -/
  dumpEnd : Nat
deriving DecidableEq, Repr

/-- The values a reset finds in the accumulator and the memory: draws, any value of 29 bits each
(10_state R36, D4, D5). A cell that `mem` does not name starts as `Config.unlistedCell`. -/
structure Draw where
  acc : Word
  mem : List MemCell
deriving DecidableEq, Repr

/-- What the host does between two engine steps (70_reset_and_hazards R120). The model's own type (log 2). -/
inductive HostInput where
  /-- Nothing: the engine steps. -/
  | quiet
  /-- Put an image, `N` and a dump range in place at the input ports. -/
  | load (config : RunConfig)
  /-- The `reset` event, with the values the registers and cells happen to hold after it. -/
  | reset (draw : Draw)
  /-- The `start` event. -/
  | start
deriving DecidableEq, Repr

/-- The machine's state: the five components of 10_state R18, the configuration of R38, the input ports of R34,
and the host's coming moves. -/
structure State where
  /-- The accumulator, the only register (10_state R19). -/
  acc : Word
  /-- The data memory (10_state R21). -/
  mem : Memory
  /-- The byte cursor into the image (10_state R26). -/
  pc : Nat
  /-- The run status (10_state R22). -/
  status : Status
  /-- The fault record, or none (10_state R23). -/
  fault : Option FaultRecord
  /-- The configuration the last reset fixed for the run (10_state R38). -/
  cfg : RunConfig
  /-- What the host has in place at the input ports; a reset latches it (10_state R34, 70_reset_and_hazards R106). -/
  ports : RunConfig
  /-- `IMAGE_MAX_BYTES`, a parameter of the hardware (00_scope R10). -/
  imageMax : Nat
  /-- The host's moves to come, the next one first; the model's own field (log 2). -/
  inputs : List HostInput
deriving DecidableEq, Repr

/-- Reasons for which the machine stops outside the spec's own FAULTED status: none. Every fault the spec
describes is a next state with its fault record (60_exceptions R89), and a machine that is not running keeps its
state (log 1), so this type is empty (log 20). -/
inductive Fault where
deriving DecidableEq, Repr

/-- Why a step has no meaning. -/
inductive Refusal where
  /-- Raised by `exec` for an instruction without a meaning, by mnemonic; no arm raises it. Safe. -/
  | notModelled (mnemonic : String)
  /-- Raised by `hostLoad`: the host changes the image or configuration while RUNNING, to which the block gives
  no meaning (70_reset_and_hazards R118, U13). Safe. -/
  | loadWhileRunning
  /-- Raised by `hostLoad`: an image longer than `IMAGE_MAX_BYTES`, which the block does not accept (00_scope R10,
  70_reset_and_hazards R108). Safe. -/
  | imageTooLong
  /-- Raised by `hostLoad`: `N = 0`, which the host may not supply (00_scope R7, 70_reset_and_hazards R108). Safe. -/
  | noMemoryCells
deriving DecidableEq, Repr

/-- The configuration `State.reset` names: no image yet, the reference `N`, dump range [0, 0]
(DESIGN CHOICE, log 5). -/
def RunConfig.reference : RunConfig :=
  { image := [], memCells := Config.refMemCells, dumpStart := 0, dumpEnd := 0 }

/-- The machine right after reset (10_state R36): `pc = 0`, IDLE, no fault. The accumulator and the memory are
draws in the spec; this one state names 0 for them (DESIGN CHOICE, log 3 and log 4), and no image is in place. -/
def State.reset : State :=
  { acc := Config.refAccInit
    mem := []
    pc := 0
    status := .idle
    fault := none
    cfg := RunConfig.reference
    ports := RunConfig.reference
    imageMax := Config.refImageMax
    inputs := [] }

end Sys2Proof.Machine
end

