-- ==== Sys2Proof/Machine/Ops.lean ====
section
/-! DEFINITION. The named operations over memory and state: reading and writing a cell, writing the accumulator,
advancing, halting, and raising a fault (00_scope R13). -/

namespace Sys2Proof.Machine

/-! ### Data memory -/

/-- What cell `a` holds (00_scope R13, `MemRead`). -/
def readMem (m : Memory) (a : Nat) : Word :=
  match m with
  | [] => Config.unlistedCell
  | (b, v) :: rest => if a = b then v else readMem rest a

/-- An entry put in front of the rest, left out where it says what an unlisted cell holds anyway. -/
def consCell (a : Nat) (v : Word) (rest : Memory) : Memory :=
  if v = Config.unlistedCell then rest else (a, v) :: rest

/-- The memory with cell `a` holding `v`, in canonical form (00_scope R13, `MemWrite`). -/
def writeMem (m : Memory) (a : Nat) (v : Word) : Memory :=
  match m with
  | [] => consCell a v []
  | (b, w) :: rest =>
    if a < b then consCell a v ((b, w) :: rest)
    else if a = b then consCell a v rest
    else (b, w) :: writeMem rest a v

/-- The canonical memory of the drawn cell values at the indexes below `n`; the first entry for an index counts,
and entries at or above `n` name no cell (10_state R36, log 4). -/
def drawnMem (n : Nat) (draw : List MemCell) : Memory :=
  match draw with
  | [] => []
  | (a, v) :: rest => if a < n then writeMem (drawnMem n rest) a v else drawnMem n rest

/-- Every listed address is at least `lo`, the addresses rise strictly, and no entry says what an unlisted cell
holds. -/
def Memory.wfFrom (lo : Nat) (m : Memory) : Bool :=
  match m with
  | [] => true
  | (a, v) :: rest => decide (lo ≤ a) && decide (v ≠ Config.unlistedCell) && Memory.wfFrom (a + 1) rest

/-- The memory is in canonical form: equal memories are equal lists. -/
def Memory.wf (m : Memory) : Bool :=
  Memory.wfFrom 0 m

/-! ### State -/

/-- `MemRead(a, 1)` (00_scope R13). -/
def State.readCell (s : State) (a : Nat) : Word :=
  readMem s.mem a

/-- `MemWrite(a, 1, v)` (00_scope R13). -/
def State.writeCell (s : State) (a : Nat) (v : Word) : State :=
  { s with mem := writeMem s.mem a v }

/-- `acc <- v` (00_scope R13). -/
def State.setAcc (s : State) (v : Word) : State :=
  { s with acc := v }

/-- `pc <- pc + len` after an instruction that raised no fault (10_state R29). -/
def State.advance (s : State) (len : Nat) : State :=
  { s with pc := s.pc + len }

/-- `halt`: the normal end of the run (10_state R30). -/
def State.halt (s : State) : State :=
  { s with status := .halted }

/-- `raise Fault(kind, info)`: FAULTED with its record; `acc`, `Mem` and `pc` are kept (60_exceptions R89, R94).
There is no return from a fault: only a reset leaves FAULTED (60_exceptions R98). -/
def State.raiseFault (s : State) (kind : FaultKind) : State :=
  { s with status := .faulted, fault := some { kind := kind, faultPc := s.pc } }

/-- A state that has no engine step: HALTED or FAULTED (10_state R22). -/
def State.terminal (s : State) : Bool :=
  decide (s.status = .halted) || decide (s.status = .faulted)

end Sys2Proof.Machine
end

