-- ==== Sys2Proof/Machine/Operands.lean ====
section
/-! DEFINITION. The operand forms (30_encoding section 5): a constant, and a direct cell address with its bounds
check (20_memory R41, R47). -/

namespace Sys2Proof.Machine

/-- The constant operand as an accumulator value, `zext_29(imm)` (30_encoding R68, 40_data_movement R85). -/
def constantValue (imm : Const) : Word :=
  imm.setWidth 29

/-- The cell a direct address names: absolute, no base, no offset, no scale (20_memory R41). -/
def cellIndex (addr : Addr) : Nat :=
  addr.toNat

/-- Whether a data address is valid: `0 ≤ a < N` (20_memory R47). -/
def State.validCell (s : State) (a : Nat) : Bool :=
  decide (a < s.cfg.memCells)

/-- The bounds check that comes before every data access: InvalidAddress with no access made where `addr ≥ N`,
else the access and the advance past a 3-byte instruction (20_memory R47, 60_exceptions R93, R94). -/
def withCell (addr : Addr) (len : Nat) (access : Nat → State → State) (s : State) :
    Host.Outcome State Fault Refusal :=
  if s.validCell (cellIndex addr) then
    .next ((access (cellIndex addr) s).advance len)
  else
    .next (s.raiseFault (.invalidAddress addr))

end Sys2Proof.Machine
end

