-- ==== Sys2Proof/Machine/Flags.lean ====
section
/-! DEFINITION. Flags: the block has none (10_state R20). The one comparison it makes is here; its outcome selects
a value and is recorded nowhere (41_arithmetic R88). -/

namespace Sys2Proof.Machine

/-- `m < acc` on unsigned 29-bit values (41_arithmetic R88, the spec's decision D2). -/
def isSmaller (m acc : Word) : Bool :=
  m.ult acc

/-- `(m < acc) ? m : acc` (41_arithmetic R88). -/
def unsignedMin (m acc : Word) : Word :=
  if isSmaller m acc then m else acc

end Sys2Proof.Machine
end

