-- ==== Sys2Proof/Machine/Arithmetic.lean ====
section
/-! DEFINITION. MIN_OP (41_arithmetic R88), with the advance of the step (10_state R29). -/

namespace Sys2Proof.Machine

/-- MIN_OP: `acc <- min(acc, MemRead(addr, 1))`, unsigned; memory is not written (41_arithmetic R88). -/
def execMinOp (addr : Addr) (s : State) : Host.Outcome State Fault Refusal :=
  withCell addr Opcode.minOp.len (fun a t => t.setAcc (unsignedMin (t.readCell a) t.acc)) s

end Sys2Proof.Machine
end

