-- ==== Sys2Proof/Machine/DataMovement.lean ====
section
/-! DEFINITION. LOAD_CONST, MEMORY_READ and MEMORY_WRITE (40_data_movement R85 to R87), each with the advance of
the step (10_state R29). -/

namespace Sys2Proof.Machine

/-- LOAD_CONST: `acc <- zext_29(imm)` (40_data_movement R85). -/
def execLoadConst (imm : Const) (s : State) : Host.Outcome State Fault Refusal :=
  .next ((s.setAcc (constantValue imm)).advance Opcode.loadConst.len)

/-- MEMORY_WRITE: `MemWrite(addr, 1, acc)` (40_data_movement R87). -/
def execMemoryWrite (addr : Addr) (s : State) : Host.Outcome State Fault Refusal :=
  withCell addr Opcode.memoryWrite.len (fun a t => t.writeCell a t.acc) s

/-- MEMORY_READ: `acc <- MemRead(addr, 1)` (40_data_movement R86). -/
def execMemoryRead (addr : Addr) (s : State) : Host.Outcome State Fault Refusal :=
  withCell addr Opcode.memoryRead.len (fun a t => t.setAcc (t.readCell a)) s

end Sys2Proof.Machine
end

