-- ==== Sys2Proof/Machine/Dispatch.lean ====
section
/-! DEFINITION. One arm per instruction: `execute(op, operand)` and the advance of the step (10_state R29). -/

namespace Sys2Proof.Machine

/-- What an instruction does. The engine calls it only while RUNNING, on the instruction at `pc`. -/
def exec (i : Instr) (s : State) : Host.Outcome State Fault Refusal :=
  match i with
  | .loadConst imm => Sys2Proof.Machine.execLoadConst imm s
  | .memoryWrite addr => Sys2Proof.Machine.execMemoryWrite addr s
  | .minOp addr => Sys2Proof.Machine.execMinOp addr s
  | .memoryRead addr => Sys2Proof.Machine.execMemoryRead addr s

end Sys2Proof.Machine
end

