-- ==== Sys2Proof/Machine/HostPort.lean ====
section
/-! DEFINITION. The host's interactions with the block (10_state section 6, 70_reset_and_hazards): load, reset,
start, the output ports, and the outcome of a run with its dump. -/

namespace Sys2Proof.Machine

/-! ### Inputs -/

/-- Put an image, `N` and a dump range in place. Allowed in any status but RUNNING (70_reset_and_hazards R120,
R118); the image must fit and `N` be at least 1 (R108). A reset later fixes them for a run (R106). -/
def hostLoad (c : RunConfig) (s : State) : Host.Outcome State Fault Refusal :=
  match s.status with
  | .running => .refused .loadWhileRunning
  | .idle | .halted | .faulted =>
    if s.imageMax < c.image.length then .refused .imageTooLong
    else if c.memCells = 0 then .refused .noMemoryCells
    else .next { s with ports := c }

/-- Reset, in any status: every state component at its value of 10_state R36, the accumulator and the cells at the
drawn values, and the configuration at the ports fixed for the run (70_reset_and_hazards R106). -/
def hostReset (d : Draw) (s : State) : State :=
  { s with
    acc := d.acc
    mem := drawnMem s.ports.memCells d.mem
    pc := 0
    status := .idle
    fault := none
    cfg := s.ports }

/-- Start: IDLE becomes RUNNING; no effect in any other status (70_reset_and_hazards R109). -/
def hostStart (s : State) : State :=
  match s.status with
  | .idle => { s with status := .running }
  | .running | .halted | .faulted => s

/-! ### Output ports -/

/-- The `status` port (10_state R34). -/
def State.statusOut (s : State) : Status :=
  s.status

/-- The numeric code of a fault kind (60_exceptions R90). -/
def FaultKind.code : FaultKind → Nat
  | .corruptImage => 1
  | .invalidOpcode _ => 2
  | .invalidAddress _ => 3

/-- The information recorded with a fault kind (60_exceptions R90). -/
def FaultKind.info : FaultKind → Option Nat
  | .corruptImage => none
  | .invalidOpcode o => some o.toNat
  | .invalidAddress a => some a.toNat

/-- The `fault_kind` port: the code of the recorded fault, 0 where there is none (60_exceptions R90). -/
def State.faultKindOut (s : State) : Nat :=
  match s.fault with
  | none => 0
  | some r => r.kind.code

/-- The `fault_pc` port; it has a value only where there is a fault record (10_state R34). -/
def State.faultPcOut (s : State) : Option Nat :=
  s.fault.map (fun r => r.faultPc)

/-- The `fault_info` port; CorruptImage has none (10_state R23, R34). -/
def State.faultInfoOut (s : State) : Option Nat :=
  s.fault.bind (fun r => r.kind.info)

/-! ### The dump and the outcome of a run -/

/-- The address an illegal dump range is reported with, or none for a legal range
(70_reset_and_hazards R113, the spec's decision D14). -/
def RunConfig.dumpBadAddress (c : RunConfig) : Option Nat :=
  if c.memCells ≤ c.dumpStart then some c.dumpStart
  else if c.memCells ≤ c.dumpEnd then some c.dumpEnd
  else if c.dumpEnd < c.dumpStart then some c.dumpEnd
  else none

/-- The `n` cells from `a` on, in order. -/
def readCells (m : Memory) : (n a : Nat) → List Word
  | 0, _ => []
  | n + 1, a => readMem m a :: readCells m n (a + 1)

/-- The dump record: the range and the values in it (70_reset_and_hazards R112). -/
structure Dump where
  first : Nat
  last : Nat
  values : List Word
deriving DecidableEq, Repr

/-- The dump of the configured range (70_reset_and_hazards R112). -/
def State.dump (s : State) : Dump :=
  { first := s.cfg.dumpStart
    last := s.cfg.dumpEnd
    values := readCells s.mem (s.cfg.dumpEnd + 1 - s.cfg.dumpStart) s.cfg.dumpStart }

/-- The outcome of a run (70_reset_and_hazards R111). -/
inductive RunOutcome where
  /-- HALTED with a legal dump range: the result. -/
  | halted (acc : Word) (dump : Dump)
  /-- HALTED with an illegal dump range: `InvalidAddress(a)`. -/
  | dumpError (a : Nat)
  /-- FAULTED: the kind with its information, and `fault_pc`. -/
  | faulted (record : FaultRecord)
deriving DecidableEq, Repr

/-- What the host collects: nothing before the status is terminal (70_reset_and_hazards R111, R120). The range is
checked only after a normal halt (R113). -/
def State.outcome (s : State) : Option RunOutcome :=
  match s.status with
  | .idle | .running => none
  | .halted =>
    match s.cfg.dumpBadAddress with
    | none => some (.halted s.acc s.dump)
    | some a => some (.dumpError a)
  | .faulted => s.fault.map .faulted

/-- The `acc_out` port: the accumulator's final value once HALTED, whatever the dump range; in no other status is there
a final value (10_state R34, R35). -/
def State.accOut (s : State) : Option Word :=
  match s.status with
  | .halted => some s.acc
  | .idle | .running | .faulted => none

/-- Whether the host receives a valid final accumulator: only where the outcome is a result, so not under a dump error
and not after a fault (60_exceptions R99, 70_reset_and_hazards R111; DEDUCED, log 12). -/
def State.accOutValid (s : State) : Bool :=
  match s.outcome with
  | some (.halted _ _) => true
  | some (.dumpError _) | some (.faulted _) | none => false

/-- The `dump_out` port: the dump's values, where the run halted with a legal range (10_state R34). -/
def State.dumpOut (s : State) : Option (List Word) :=
  match s.outcome with
  | some (.halted _ d) => some d.values
  | _ => none

/-- State readable after a fault, partial and no result (60_exceptions R99, U1). -/
structure Diagnostics where
  acc : Word
  mem : Memory
  pc : Nat
deriving DecidableEq, Repr

/-- What the host may read for diagnosis after a fault (60_exceptions R99). -/
def State.diagnostics (s : State) : Option Diagnostics :=
  match s.status with
  | .faulted => some { acc := s.acc, mem := s.mem, pc := s.pc }
  | .idle | .running | .halted => none

end Sys2Proof.Machine
end

