-- ==== Sys2Proof/Machine/Engine.lean ====
section
/-! DEFINITION. The engine's step: fetch, decode, execute (10_state R27 to R30), and the host's moves between two
engine steps (70_reset_and_hazards R120). -/

namespace Sys2Proof.Machine

/-- One step of a running engine (10_state R29): halt at the end of the image, raise what the decode fails with,
or execute. -/
def runStep (s : State) : Host.Outcome State Fault Refusal :=
  match decode s.cfg.image s.pc with
  | .error .endOfImage => .next s.halt
  | .error (.invalidOpcode o) => .next (s.raiseFault (.invalidOpcode o))
  | .error (.truncatedInstruction _) => .next (s.raiseFault .corruptImage)
  | .ok (i, _) => exec i s

/-- The engine steps only while RUNNING; in any other status the state stays (10_state R22, R29,
70_reset_and_hazards R114; log 1). -/
def engineStep (s : State) : Host.Outcome State Fault Refusal :=
  match s.status with
  | .running => runStep s
  | .idle | .halted | .faulted => .next s

/-- One move of the host: nothing, so that the engine steps, or an event between two engine steps
(70_reset_and_hazards R120). -/
def hostMove (m : HostInput) (s : State) : Host.Outcome State Fault Refusal :=
  match m with
  | .quiet => engineStep s
  | .load c => hostLoad c s
  | .reset d => .next (hostReset d s)
  | .start => .next (hostStart s)

/-- The state whose next fetch finds `bytes` at `pc`: RUNNING, no fault, no host move pending, the image holding
the bytes before `pc` and then these. -/
def placeInstr (bytes : List Byte) (s : State) : State :=
  { s with
    status := .running
    fault := none
    cfg := { s.cfg with image := (s.cfg.image ++ List.replicate s.pc 0).take s.pc ++ bytes }
    inputs := [] }

end Sys2Proof.Machine
end

