-- ==== Sys2Proof/Machine/Step.lean ====
section
/-! DEFINITION. One step of the machine: the host's next move if its schedule holds one, else the engine's step. -/

namespace Sys2Proof.Machine

/-- One step (10_state R29; the host's moves fall between engine steps, R33, log 2). -/
def step (s : State) : Host.Outcome State Fault Refusal :=
  match s.inputs with
  | [] => engineStep s
  | m :: rest => hostMove m { s with inputs := rest }

/-- The state in which that word of the opcode table is the instruction the next step fetches and runs
(log 18: it stands for load, reset and start). -/
def State.withFetchWord (s : State) (nbits w : Nat) : State :=
  placeInstr (tableInstrBytes nbits w) s

end Sys2Proof.Machine
end

