-- ==== Sys2Proof/Machine/Assembler.lean ====
section
/-! DEFINITION. The assembler of the reference toolchain (00_scope R4, 30_encoding R77 to R84). It is no part of the
hardware: a pure function from a source text to a binary image and a log, or to the error of the first failing line.
The comment delimiter is an argument (00_scope R10, D17). -/

namespace Sys2Proof.Machine

/-- The assembler's errors, each with its 1-based line number (30_encoding R79 to R82, 60_exceptions R100). -/
inductive AsmError where
  | malformedInstruction (line : Nat)
  | invalidOpcode (line : Nat)
  | operandOutOfRange (line : Nat)
deriving DecidableEq, Repr

/-- One log entry: line number, opcode, operand, the encoded bytes and their hexadecimal digits in image order
(30_encoding R83). -/
structure LogEntry where
  line : Nat
  instr : RawInstr
  bytes : List Byte
  hex : List Char
deriving DecidableEq, Repr

/-- What a successful assembly returns (30_encoding R83). -/
structure Assembly where
  image : List Byte
  log : List LogEntry
deriving DecidableEq, Repr

/-- The lines of a text, separated by LF; what follows the last LF is a line (30_encoding R77). -/
def splitLines : List Char → List (List Char)
  | [] => [[]]
  | c :: rest =>
    if c = '\n' then
      [] :: splitLines rest
    else
      match splitLines rest with
      | [] => [[c]]
      | l :: ls => (c :: l) :: ls

/-- Space, tab, CR, LF, VT and FF (30_encoding R79, D20). -/
def isWhitespace (c : Char) : Bool :=
  c = ' ' || c = '\t' || c = '\r' || c = '\n' || c = '\x0b' || c = '\x0c'

/-- The text of a line before the first comment delimiter (30_encoding R78). -/
def lineContent (commentChar : Char) (line : List Char) : List Char :=
  line.takeWhile (fun c => c != commentChar)

/-- The maximal runs of characters that are no whitespace (30_encoding R79). -/
def tokens : List Char → List (List Char)
  | [] => []
  | c :: rest =>
    if isWhitespace c then
      tokens rest
    else
      match rest with
      | [] => [[c]]
      | d :: _ =>
        if isWhitespace d then
          [c] :: tokens rest
        else
          match tokens rest with
          | [] => [[c]]
          | t :: ts => (c :: t) :: ts

/-- The value of a decimal digit. -/
def digitValue (c : Char) : Option Nat :=
  if 48 ≤ c.toNat ∧ c.toNat ≤ 57 then some (c.toNat - 48) else none

/-- Reads decimal digits behind a value already read. -/
def decimalFrom (value : Nat) : List Char → Option Nat
  | [] => some value
  | c :: rest =>
    match digitValue c with
    | none => none
    | some d => decimalFrom (10 * value + d) rest

/-- A decimal numeral `[0-9]+` (30_encoding R80). -/
def decimal : List Char → Option Nat
  | [] => none
  | c :: rest => decimalFrom 0 (c :: rest)

/-- A decimal integer literal `[+-]?[0-9]+` (30_encoding R81). -/
def operandToken : List Char → Option Int
  | '-' :: rest => (decimal rest).map (fun n => -(n : Int))
  | '+' :: rest => (decimal rest).map (fun n => (n : Int))
  | cs => (decimal cs).map (fun n => (n : Int))

/-- The designator tokens, case-sensitive: long and short names, or a numeral whose value the encoder checks
(30_encoding R80). -/
def designator (t : List Char) : Option Nat :=
  if t = "LOAD_CONST".toList ∨ t = "LOAD".toList then some Opcode.loadConst.code
  else if t = "MEMORY_WRITE".toList ∨ t = "WRITE".toList then some Opcode.memoryWrite.code
  else if t = "MIN_OP".toList ∨ t = "MIN".toList then some Opcode.minOp.code
  else if t = "MEMORY_READ".toList ∨ t = "READ".toList then some Opcode.memoryRead.code
  else decimal t

/-- What one line says. -/
inductive ParsedLine where
  /-- Blank or comment only: no bytes, no log entry (30_encoding R78). -/
  | skipped
  /-- Not two tokens, or a token that is no designator or no integer (30_encoding R79 to R81). -/
  | malformed
  /-- A designator and an operand. -/
  | parsed (r : RawInstr)
deriving DecidableEq, Repr

/-- Reads one line (30_encoding R78 to R81). -/
def parseLine (commentChar : Char) (line : List Char) : ParsedLine :=
  match tokens (lineContent commentChar line) with
  | [] => .skipped
  | [d, v] =>
    match designator d, operandToken v with
    | some op, some operand => .parsed { opcode := op, operand := operand }
    | _, _ => .malformed
  | _ => .malformed

/-- An encoding error with the line it came from (30_encoding R82). -/
def encodeErrorAt (line : Nat) : EncodeError → AsmError
  | .invalidOpcode => .invalidOpcode line
  | .operandOutOfRange => .operandOutOfRange line

/-- One hexadecimal digit, capital letters (DESIGN CHOICE, log 15: the spec fixes no letter case). -/
def hexDigit (n : Nat) : Char :=
  if n < 10 then Char.ofNat (48 + n) else Char.ofNat (55 + n)

/-- Two hexadecimal digits a byte, in image order (30_encoding R83). -/
def hexOf (bytes : List Byte) : List Char :=
  bytes.flatMap (fun b => [hexDigit (b.toNat / 16), hexDigit (b.toNat % 16)])

/-- The bytes and the log of one line, or its error (30_encoding R78 to R83). -/
def assembleLine (commentChar : Char) (n : Nat) (line : List Char) : Except AsmError Assembly :=
  match parseLine commentChar line with
  | .skipped => .ok { image := [], log := [] }
  | .malformed => .error (.malformedInstruction n)
  | .parsed r =>
    match encodeRaw r with
    | .error e => .error (encodeErrorAt n e)
    | .ok bytes => .ok { image := bytes, log := [{ line := n, instr := r, bytes := bytes, hex := hexOf bytes }] }

/-- The lines from number `n` on, in one forward pass that stops at the first failing line (30_encoding R77, R83). -/
def assembleLines (commentChar : Char) (n : Nat) : List (List Char) → Except AsmError Assembly
  | [] => .ok { image := [], log := [] }
  | line :: rest =>
    match assembleLine commentChar n line with
    | .error e => .error e
    | .ok a =>
      match assembleLines commentChar (n + 1) rest with
      | .error e => .error e
      | .ok b => .ok { image := a.image ++ b.image, log := a.log ++ b.log }

/-- `assemble`: the image and the log of a source text, or the error of its first failing line (30_encoding R83,
R84). -/
def assemble (commentChar : Char) (source : List Char) : Except AsmError Assembly :=
  assembleLines commentChar 1 (splitLines source)

end Sys2Proof.Machine
end

