-- ==== Sys2Proof/Safety.lean ====
section
/-! DEFINITION. The notions the statements use: the byte tables of the two formats, where an image holds bytes, a
state whose next step is the engine's, the invariant of the machine, and a straight run of instructions. -/

namespace Sys2Proof.Machine

/-! ### Bytes, written from the spec's own byte tables -/

/-- Format F3 byte by byte (30_encoding R57), with chosen padding bits. -/
def f3Bytes (opcode : OpcodeBits) (addr : Addr) (padding : BitVec 2) : List Byte :=
  [addr.extractLsb' 0 3 ++ opcode, addr.extractLsb' 3 8, padding ++ addr.extractLsb' 11 6]

/-- Format F5 byte by byte (30_encoding R58), with chosen padding bits. -/
def f5Bytes (opcode : OpcodeBits) (imm : Const) (padding : BitVec 6) : List Byte :=
  [imm.extractLsb' 0 3 ++ opcode, imm.extractLsb' 3 8, imm.extractLsb' 11 8, imm.extractLsb' 19 8,
    padding ++ imm.extractLsb' 27 2]

/-- The bytes of an instruction with chosen padding bits: all six of them in format F5, the low two in format F3
(30_encoding R56 to R59). -/
def bytesWithPadding (i : Instr) (padding : BitVec 6) : List Byte :=
  match i with
  | .loadConst imm => f5Bytes 14 imm padding
  | .memoryWrite addr => f3Bytes 15 addr (padding.setWidth 2)
  | .minOp addr => f3Bytes 20 addr (padding.setWidth 2)
  | .memoryRead addr => f3Bytes 25 addr (padding.setWidth 2)

/-- The image holds these bytes at an offset. -/
abbrev holdsAt (image : List Byte) (p : Nat) (bytes : List Byte) : Prop :=
  (image.drop p).take bytes.length = bytes

/-! ### Steps of the engine -/

/-- The next step is a step of the running engine: RUNNING, and no move of the host pending. -/
abbrev State.engineNext (s : State) : Prop :=
  s.status = .running ∧ s.inputs = []

/-- The same state with another image. -/
def State.withImage (s : State) (image : List Byte) : State :=
  { s with cfg := { s.cfg with image := image } }

/-- The same state with another dump range. -/
def State.withDumpRange (s : State) (first last : Nat) : State :=
  { s with cfg := { s.cfg with dumpStart := first, dumpEnd := last } }

/-- The instructions one after the other, as long as the run goes on (10_state R32: program order is execution
order); none where the run ended before the last one completed. -/
def execAll : List Instr → State → Option State
  | [], s => some s
  | i :: is, s =>
    match exec i s with
    | .next t => if t.status = .running then execAll is t else none
    | .fault _ => none
    | .refused _ => none

/-- `k` steps of the machine, stopping at the first refusal. -/
def stepN : Nat → State → Host.Outcome State Fault Refusal
  | 0, s => .next s
  | k + 1, s =>
    match step s with
    | .next t => stepN k t
    | .fault r => .fault r
    | .refused r => .refused r

/-! ### Invariants -/

/-- The host's duties for a configuration: `L ≤ IMAGE_MAX_BYTES` and `N ≥ 1` (70_reset_and_hazards R108). -/
structure RunConfig.Legal (imageMax : Nat) (c : RunConfig) : Prop where
  imageFits : c.image.length ≤ imageMax
  cellsExist : 1 ≤ c.memCells

/-- The invariant of the machine: what holds after every step from a reset. -/
structure State.Inv (s : State) : Prop where
  /-- The memory is in canonical form. -/
  memCanonical : Memory.wf s.mem = true
  /-- Every listed cell is one of the `N` (10_state R21). -/
  memInBounds : ∀ e ∈ s.mem, e.1 < s.cfg.memCells
  /-- `0 ≤ pc ≤ L` (10_state R31). -/
  pcInImage : s.pc ≤ s.cfg.image.length
  /-- There is a fault record exactly while FAULTED (10_state R23). -/
  faultWhileFaulted : s.fault.isSome = true ↔ s.status = .faulted
  /-- `fault_pc` is the offset of the faulting instruction, where `pc` stays (60_exceptions R94, R96). -/
  faultAtPc : ∀ r, s.fault = some r → r.faultPc = s.pc
  /-- A halt happens exactly at the end of the image (10_state R30). -/
  haltedAtEnd : s.status = .halted → s.pc = s.cfg.image.length
  /-- A run that has not started is at its entry point (10_state R36). -/
  idleAtStart : s.status = .idle → s.pc = 0
  /-- The configuration of the run is legal. -/
  cfgLegal : s.cfg.Legal s.imageMax
  /-- What is in place at the ports is legal. -/
  portsLegal : s.ports.Legal s.imageMax

/-- A fault's cause, read from the image and `N` (60_exceptions R90): what the decoder finds at `fault_pc`. -/
def FaultRecord.explained (c : RunConfig) (r : FaultRecord) : Prop :=
  match r.kind with
  | .corruptImage => decode c.image r.faultPc = .error (.truncatedInstruction r.faultPc)
  | .invalidOpcode o => decode c.image r.faultPc = .error (.invalidOpcode o)
  | .invalidAddress a =>
    c.memCells ≤ a.toNat ∧
      (decode c.image r.faultPc = .ok (.memoryRead a, 3) ∨ decode c.image r.faultPc = .ok (.memoryWrite a, 3) ∨
        decode c.image r.faultPc = .ok (.minOp a, 3))

/-- Every recorded fault has its cause in the run's image and configuration. -/
def State.FaultExplained (s : State) : Prop :=
  ∀ r, s.fault = some r → r.explained s.cfg

end Sys2Proof.Machine
end

