-- ==== Sys2Proof/Certificates/Slice0/Obligations.lean ====
section
/-! DEFINITION. The statements about the konfig1 VM core. Each docstring names the rule or section of spec/ it
formalises. `s.engineNext` says that the next step is the running engine's: RUNNING, no move of the host pending. -/

open Sys2Proof Sys2Proof.Machine

/-! ### Encoding and decoding -/

/-- The encoder writes the bytes of the tables of 30_encoding section 1, opcode 14, 15, 20 or 25 in the low five bits
of byte 0, every padding bit 0. -/
def Obligations.EncodeMatchesByteTables : Prop :=
  ∀ (imm : Const) (addr : Addr),
    encode (.loadConst imm) = f5Bytes 14 imm 0 ∧ encode (.memoryWrite addr) = f3Bytes 15 addr 0 ∧
    encode (.minOp addr) = f3Bytes 20 addr 0 ∧ encode (.memoryRead addr) = f3Bytes 25 addr 0

/-- 30_encoding R66: with any padding bits, an instruction's bytes decode to it, and two images that hold it at `pc`
with different padding bits step to the same state but for the image itself. -/
def Obligations.DecodeIgnoresPadding : Prop :=
  (∀ (i : Instr) (padding : BitVec 6) (image : List Byte) (p : Nat),
    holdsAt image p (bytesWithPadding i padding) → decode image p = .ok (i, i.len)) ∧
  ∀ (s : State) (i : Instr) (padding padding' : BitVec 6) (image' : List Byte), s.engineNext →
    holdsAt s.cfg.image s.pc (bytesWithPadding i padding) → holdsAt image' s.pc (bytesWithPadding i padding') →
    ∃ t, step s = .next t ∧ step (s.withImage image') = .next (t.withImage image')

/-- 30_encoding R72: every assigned opcode with an operand in range is an instruction, `encode` succeeds on it, and
whatever image holds its bytes at an offset decodes there to the instruction and its length. -/
def Obligations.DecodeEncodeRoundTrip : Prop :=
  (∀ r : RawInstr, r.wellFormed = true → ∃ i : Instr, i.raw = r) ∧
  ∀ i : Instr, encodeRaw i.raw = .ok (encode i) ∧
    ∀ (image : List Byte) (p : Nat), holdsAt image p (encode i) → decode image p = .ok (i, i.len)

/-- 30_encoding R70: `encode` fails with InvalidOpcode exactly on an unassigned opcode, with OperandOutOfRange exactly
on an operand that does not fit an assigned one, and succeeds exactly on a well-formed pair. -/
def Obligations.EncodeFailsExactlyOnBadPairs : Prop :=
  ∀ r : RawInstr,
    (encodeRaw r = .error .invalidOpcode ↔ r.opcodeAssigned = false) ∧
    (encodeRaw r = .error .operandOutOfRange ↔ r.opcodeAssigned = true ∧ r.operandFits = false) ∧
    ((∃ bytes, encodeRaw r = .ok bytes) ↔ r.wellFormed = true)

/-- 30_encoding section 3, step 2, and 60_exceptions section 1, after the spec's own decision D8: an unassigned opcode
is InvalidOpcode whatever follows it, and the engine records the opcode and `pc`. -/
def Obligations.UnassignedOpcodeFaults : Prop :=
  ∀ (s : State) (b : Byte), s.engineNext → s.cfg.image[s.pc]? = some b →
    b.toNat % 32 ∉ [14, 15, 20, 25] →
    decode s.cfg.image s.pc = .error (.invalidOpcode (b.setWidth 5)) ∧
    step s = .next { s with
      status := .faulted, fault := some { kind := .invalidOpcode (b.setWidth 5), faultPc := s.pc } }

/-- 30_encoding R64: an assigned opcode with too few bytes behind it is TruncatedInstruction(pc), which the engine
turns into CorruptImage; with enough bytes it decodes, to an instruction of that opcode and length. -/
def Obligations.TruncationIsCorruptImage : Prop :=
  ∀ (s : State) (b : Byte) (op : Opcode), s.engineNext → s.cfg.image[s.pc]? = some b →
    b.toNat % 32 = op.code →
    (s.cfg.image.length < s.pc + op.len →
      decode s.cfg.image s.pc = .error (.truncatedInstruction s.pc) ∧
      step s = .next { s with
        status := .faulted, fault := some { kind := .corruptImage, faultPc := s.pc } }) ∧
    (s.pc + op.len ≤ s.cfg.image.length →
      ∃ i : Instr, i.opcode = op ∧ decode s.cfg.image s.pc = .ok (i, op.len))

/-- 30_encoding section 1: opcode bit `j` is bit `j` of byte 0, and operand bit `j` is bit `5 + j` of the word whose
byte 0 is least significant. -/
def Obligations.DecodedFieldsAreImageBits : Prop :=
  ∀ (image : List Byte) (pc n : Nat) (i : Instr), decode image pc = .ok (i, n) →
    n = i.len ∧ pc + n ≤ image.length ∧
    (∀ j, j < 5 → i.opcode.code.testBit j = (image.getD pc 0).getLsbD j) ∧
    (∀ j, j < i.opcode.width →
      i.operand.testBit j = (image.getD (pc + (5 + j) / 8) 0).getLsbD ((5 + j) % 8)) ∧
    i.operand < 2 ^ i.opcode.width

/-- 30_encoding section 3: `decode` reads only the instruction's own bytes, and only byte 0 where it answers
InvalidOpcode. -/
def Obligations.DecodeReadsOnlyItsBytes : Prop :=
  ∀ (image image' : List Byte) (pc : Nat),
    (∀ i n, decode image pc = .ok (i, n) → holdsAt image' pc ((image.drop pc).take n) →
      decode image' pc = .ok (i, n)) ∧
    (∀ o, decode image pc = .error (.invalidOpcode o) → image'[pc]? = image[pc]? →
      decode image' pc = .error (.invalidOpcode o))

/-- 30_encoding section 4: an image built from a program decodes back into the program, the last instruction ending
exactly at the end of the image. -/
def Obligations.ProgramImageDecodesBack : Prop :=
  ∀ is : List Instr, decodeProgram (encodeProgram is) (is.length + 1) 0 = .ok is ∧
    (encodeProgram is).length = (is.map Instr.len).sum

/-- 95_test_vectors section 1: the spec's worked encodings, both ways, and two of its decode vectors with padding
bits set. -/
def Obligations.SpecWordsDecode : Prop :=
  decode [0x2E, 0x10, 0x00, 0x00, 0x00] 0 = .ok (.loadConst 129, 5) ∧
  decode [0x59, 0x01, 0x00] 0 = .ok (.memoryRead 10, 3) ∧
  decode [0x2F, 0x5F, 0x00] 0 = .ok (.memoryWrite 761, 3) ∧
  decode [0xF4, 0x74, 0x00] 0 = .ok (.minOp 935, 3) ∧
  decode [0xEE, 0xFF, 0xFF, 0xFF, 0xFF] 0 = .ok (.loadConst 536870911, 5) ∧
  decode [0xEF, 0xFF, 0xFF] 0 = .ok (.memoryWrite 131071, 3) ∧
  encode (.loadConst 536870911) = [0xEE, 0xFF, 0xFF, 0xFF, 0x03] ∧
  encode (.memoryRead 9999) = [0xF9, 0xE1, 0x04]

/-! ### Fetch, decode, execute -/

/-- 10_state section 5: a running engine's step is `exec` of the well-formed instruction its image holds at `pc`; a
quiet move of the host is taken off the schedule first. Whatever the image holds at `pc`, a step on a quiet move is the
engine's own step with the rest of the schedule left in place: it answers the state that the step with no move pending
answers, so it halts, raises InvalidOpcode or CorruptImage, and executes exactly as that step does. The schedule is the
model's own (log 2). -/
def Obligations.StepRunsDecodedInstruction : Prop :=
  (∀ (s : State) (i : Instr) (n : Nat), s.status = .running →
    decode s.cfg.image s.pc = .ok (i, n) → i.wellFormed = true →
    (s.inputs = [] → step s = exec i s) ∧
    (∀ rest, s.inputs = .quiet :: rest → step s = exec i { s with inputs := rest })) ∧
  ∀ (s : State) (rest : List HostInput), s.status = .running → s.inputs = .quiet :: rest →
    step s = engineStep { s with inputs := rest } ∧
    ∃ t, step { s with inputs := [] } = .next t ∧ step s = .next { t with inputs := rest } ∧
      (s.cfg.image.length ≤ s.pc → t = { s with status := .halted, inputs := [] }) ∧
      (∀ o, decode s.cfg.image s.pc = .error (.invalidOpcode o) →
        t = { s with
          status := .faulted, fault := some { kind := .invalidOpcode o, faultPc := s.pc }, inputs := [] }) ∧
      (∀ p, decode s.cfg.image s.pc = .error (.truncatedInstruction p) →
        t = { s with status := .faulted, fault := some { kind := .corruptImage, faultPc := s.pc }, inputs := [] })

/-- 10_state R27: at or behind the end of the image the step halts and does nothing else, so an empty image halts at
once; and the engine halts nowhere else. -/
def Obligations.HaltExactlyAtEndOfImage : Prop :=
  ∀ s : State, s.engineNext →
    (s.cfg.image.length ≤ s.pc → step s = .next { s with status := .halted }) ∧
    (∀ t, step s = .next t → t.status = .halted → s.cfg.image.length ≤ s.pc)

/-- 40_data_movement, LOAD_CONST: the constant, whatever the accumulator held. -/
def Obligations.LoadConstCompletes : Prop :=
  ∀ (imm : Const) (s : State), exec (.loadConst imm) s = .next { s with acc := imm, pc := s.pc + 5 }

/-- 40_data_movement, MEMORY_READ: the cell's value, for every valid address. -/
def Obligations.MemoryReadCompletes : Prop :=
  ∀ (addr : Addr) (s : State), addr.toNat < s.cfg.memCells →
    exec (.memoryRead addr) s = .next { s with acc := s.readCell addr.toNat, pc := s.pc + 3 }

/-- 40_data_movement, MEMORY_WRITE: the cell holds the accumulator's value, every other cell and everything else stays,
for every valid address and a memory in canonical form. -/
def Obligations.MemoryWriteCompletes : Prop :=
  ∀ (addr : Addr) (s : State), addr.toNat < s.cfg.memCells → Memory.wf s.mem = true →
    ∃ m : Memory, exec (.memoryWrite addr) s = .next { s with mem := m, pc := s.pc + 3 } ∧
      Memory.wf m = true ∧
      ∀ b, readMem m b = if b = addr.toNat then s.acc else s.readCell b

/-- 41_arithmetic, MIN_OP, after the spec's own decision D2: the smaller of the two unsigned 29-bit values; nothing
else but `pc` changes, and the comparison is recorded nowhere. -/
def Obligations.MinOpCompletes : Prop :=
  ∀ (addr : Addr) (s : State), addr.toNat < s.cfg.memCells →
    ∃ v : Word, exec (.minOp addr) s = .next { s with acc := v, pc := s.pc + 3 } ∧
      v.toNat = min (s.readCell addr.toNat).toNat s.acc.toNat

/-- 40_data_movement R85, from the image's bytes: opcode 14 with any padding loads its constant and advances by 5 with
no other effect; with fewer than 5 bytes left it raises CorruptImage; the encoder rejects 2^29. -/
def Obligations.LoadConstFromImage : Prop :=
  (∀ (s : State) (imm : Const) (padding : BitVec 6), s.engineNext →
    holdsAt s.cfg.image s.pc (f5Bytes 14 imm padding) →
    step s = .next { s with acc := imm, pc := s.pc + 5 }) ∧
  (∀ (s : State) (b : Byte), s.engineNext → s.cfg.image[s.pc]? = some b → b.toNat % 32 = 14 →
    s.cfg.image.length < s.pc + 5 →
    step s = .next { s with status := .faulted, fault := some { kind := .corruptImage, faultPc := s.pc } }) ∧
  encodeRaw { opcode := 14, operand := 2 ^ 29 } = .error .operandOutOfRange

/-- 40_data_movement R86, from the image's bytes: opcode 25 with any padding reads its cell and advances by 3, or
raises InvalidAddress with the address and changes nothing; and a cell that no MEMORY_WRITE of the run wrote still
holds what it held at the start. -/
def Obligations.MemoryReadFromImage : Prop :=
  (∀ (s : State) (addr : Addr) (padding : BitVec 2), s.engineNext →
    holdsAt s.cfg.image s.pc (f3Bytes 25 addr padding) →
    step s = .next (if addr.toNat < s.cfg.memCells then
      { s with acc := s.readCell addr.toNat, pc := s.pc + 3 }
    else
      { s with status := .faulted, fault := some { kind := .invalidAddress addr, faultPc := s.pc } })) ∧
  ∀ (is : List Instr) (s t : State) (addr : Addr), Memory.wf s.mem = true → execAll is s = some t →
    .memoryWrite addr ∉ is → t.readCell addr.toNat = s.readCell addr.toNat

/-- 40_data_movement, MEMORY_WRITE, from the image's bytes: opcode 15 with any padding writes the accumulator to its
cell and advances by 3, or raises InvalidAddress with no cell written; and after any run of further instructions that
does not write the cell again, a MEMORY_READ or MIN_OP of it sees the written value. That MIN_OP compares unsigned is
the spec's own decision D2 (log 13). -/
def Obligations.MemoryWriteFromImage : Prop :=
  ∀ (s : State) (addr : Addr) (padding : BitVec 2), s.engineNext → Memory.wf s.mem = true →
    holdsAt s.cfg.image s.pc (f3Bytes 15 addr padding) →
    (addr.toNat < s.cfg.memCells →
      ∃ m : Memory, step s = .next { s with mem := m, pc := s.pc + 3 } ∧
        (∀ b, readMem m b = if b = addr.toNat then s.acc else s.readCell b) ∧
        ∀ (is : List Instr) (t : State), execAll is { s with mem := m, pc := s.pc + 3 } = some t →
          .memoryWrite addr ∉ is →
          t.readCell addr.toNat = s.acc ∧
          exec (.memoryRead addr) t = .next { t with acc := s.acc, pc := t.pc + 3 } ∧
          ∃ v : Word, exec (.minOp addr) t = .next { t with acc := v, pc := t.pc + 3 } ∧
            v.toNat = min s.acc.toNat t.acc.toNat) ∧
    (s.cfg.memCells ≤ addr.toNat →
      step s = .next { s with
        status := .faulted, fault := some { kind := .invalidAddress addr, faultPc := s.pc } })

/-- 41_arithmetic, MIN_OP from the image's bytes, after the spec's own decision D2: opcode 20 with any padding takes the
unsigned minimum and advances by 3, or raises InvalidAddress and changes nothing. -/
def Obligations.MinOpFromImage : Prop :=
  ∀ (s : State) (addr : Addr) (padding : BitVec 2), s.engineNext →
    holdsAt s.cfg.image s.pc (f3Bytes 20 addr padding) →
    (addr.toNat < s.cfg.memCells →
      ∃ v : Word, step s = .next { s with acc := v, pc := s.pc + 3 } ∧
        v.toNat = min (s.readCell addr.toNat).toNat s.acc.toNat) ∧
    (s.cfg.memCells ≤ addr.toNat →
      step s = .next { s with
        status := .faulted, fault := some { kind := .invalidAddress addr, faultPc := s.pc } })

/-- 60_exceptions R93: each of the three memory instructions raises InvalidAddress for an address at or above `N`,
recording the address and `pc`, and for no other address does an instruction raise anything. -/
def Obligations.InvalidAddressExactlyOutOfBounds : Prop :=
  (∀ (addr : Addr) (i : Instr) (s : State), i ∈ [.memoryRead addr, .memoryWrite addr, .minOp addr] →
    s.cfg.memCells ≤ addr.toNat →
    exec i s = .next { s with
      status := .faulted, fault := some { kind := .invalidAddress addr, faultPc := s.pc } }) ∧
  ∀ (i : Instr) (s t : State), exec i s = .next t → t.fault ≠ s.fault →
    ∃ addr : Addr, i ∈ [.memoryRead addr, .memoryWrite addr, .minOp addr] ∧ s.cfg.memCells ≤ addr.toNat ∧
      t.fault = some { kind := .invalidAddress addr, faultPc := s.pc }

/-! ### Frames -/

/-- Frame of LOAD_CONST, MIN_OP and MEMORY_READ: every cell and every other component stays, but the accumulator and
`pc`; where the instruction faults, those two stay as well and only status and fault record change. -/
def Obligations.FrameOfAccumulatorInstructions : Prop :=
  ∀ (i : Instr) (s t : State), i.opcode ≠ .memoryWrite → exec i s = .next t →
    (∀ a, t.readCell a = s.readCell a) ∧ t.cfg = s.cfg ∧ t.ports = s.ports ∧ t.imageMax = s.imageMax ∧
    t.inputs = s.inputs ∧
    ((t.status = s.status ∧ t.fault = s.fault) ∨
     (t.status = .faulted ∧ t.acc = s.acc ∧ t.pc = s.pc))

/-- Frame of MEMORY_WRITE: the accumulator and every component but `pc` and the memory stay, and every cell but the
one at the operand's address; where it faults, every cell and `pc` stay and only status and fault record change. -/
def Obligations.FrameOfMemoryWrite : Prop :=
  ∀ (addr : Addr) (s t : State), Memory.wf s.mem = true → exec (.memoryWrite addr) s = .next t →
    t.acc = s.acc ∧ t.cfg = s.cfg ∧ t.ports = s.ports ∧ t.imageMax = s.imageMax ∧ t.inputs = s.inputs ∧
    (∀ a, a ≠ cellIndex addr → t.readCell a = s.readCell a) ∧
    ((t.status = s.status ∧ t.fault = s.fault) ∨
     (t.status = .faulted ∧ t.pc = s.pc ∧ ∀ a, t.readCell a = s.readCell a))

/-- 60_exceptions sections 1 and 3, after the spec's own decision D12: a step that ends FAULTED changes nothing but
status and fault record, and the record's `fault_pc` is `pc`. -/
def Obligations.FaultingStepChangesNothingElse : Prop :=
  ∀ s t : State, s.engineNext → step s = .next t → t.status = .faulted →
    ∃ k : FaultKind, t = { s with status := .faulted, fault := some { kind := k, faultPc := s.pc } }

/-- 10_state R32: `pc` changes only by the length of the instruction decoded there, in a step after which the engine
still runs; a step that ends the run leaves it. -/
def Obligations.PcChangesOnlyByInstructionLength : Prop :=
  ∀ s t : State, s.engineNext → step s = .next t →
    (t.pc = s.pc ∧ t.status ≠ .running) ∨
    (t.status = .running ∧ ∃ i : Instr, decode s.cfg.image s.pc = .ok (i, i.len) ∧ t.pc = s.pc + i.len)

/-- 10_state section 1, 20_memory section 1 and, for the reset, 70_reset_and_hazards section 1 (R106, D15): no step but
a reset changes the image, `N` or the dump range of the run, no step but a load changes what is in place at the ports,
and no step changes IMAGE_MAX_BYTES. That a load leaves the run's configuration, and only a reset makes the ports that
configuration, is the model's inference (DEDUCED, log 9). -/
def Obligations.ConfigurationChangesOnlyByHost : Prop :=
  ∀ s t : State, step s = .next t →
    ((∀ d rest, s.inputs ≠ .reset d :: rest) → t.cfg = s.cfg) ∧
    ((∀ c rest, s.inputs ≠ .load c :: rest) → t.ports = s.ports) ∧ t.imageMax = s.imageMax

/-- 20_memory section 4: a cell whose index does not fit 17 bits is changed by no instruction, and read by none: on a
memory that differs only in such cells, `exec` answers the same state but for those cells. -/
def Obligations.HighCellsUnreachable : Prop :=
  ∀ (i : Instr) (s t : State), Memory.wf s.mem = true → exec i s = .next t →
    (∀ a, 2 ^ 17 ≤ a → t.readCell a = s.readCell a) ∧
    ∀ m : Memory, Memory.wf m = true → (∀ a, a < 2 ^ 17 → readMem m a = s.readCell a) →
      ∃ m' : Memory, exec i { s with mem := m } = .next { t with mem := m' } ∧
        (∀ a, a < 2 ^ 17 → readMem m' a = t.readCell a) ∧ ∀ a, 2 ^ 17 ≤ a → readMem m' a = readMem m a

/-! ### Ordering -/

/-- 70_reset_and_hazards section 3: back to back, with no spacing, a read or a minimum sees the value just written, and
a write stores the constant just loaded; every one of these instructions completes: it advances `pc` by its length, and
status and fault record stay. -/
def Obligations.BackToBackDependencies : Prop :=
  ∀ (s : State) (addr : Addr) (imm : Const), Memory.wf s.mem = true → addr.toNat < s.cfg.memCells →
    (∃ t u v, exec (.memoryWrite addr) s = .next t ∧ t.pc = s.pc + 3 ∧ t.status = s.status ∧ t.fault = s.fault ∧
      exec (.memoryRead addr) t = .next u ∧ u.acc = s.acc ∧
      u.pc = s.pc + 6 ∧ u.status = s.status ∧ u.fault = s.fault ∧
      exec (.minOp addr) t = .next v ∧ v.acc = s.acc ∧
      v.pc = s.pc + 6 ∧ v.status = s.status ∧ v.fault = s.fault) ∧
    ∃ t u, exec (.loadConst imm) s = .next t ∧ t.pc = s.pc + 5 ∧ t.status = s.status ∧ t.fault = s.fault ∧
      exec (.memoryWrite addr) t = .next u ∧ u.readCell addr.toNat = imm ∧
      u.pc = s.pc + 8 ∧ u.status = s.status ∧ u.fault = s.fault

/-- 20_memory section 5: along a run of any length, a cell holds what the accumulator held at the latest MEMORY_WRITE
to it, or what it held at the start if there was none. -/
def Obligations.CellHoldsLatestWrite : Prop :=
  ∀ (is : List Instr) (s t : State) (addr : Addr), Memory.wf s.mem = true → execAll is s = some t →
    (.memoryWrite addr ∉ is → t.readCell addr.toNat = s.readCell addr.toNat) ∧
    ∀ (before after : List Instr), is = before ++ .memoryWrite addr :: after → .memoryWrite addr ∉ after →
      ∃ u, execAll before s = some u ∧ t.readCell addr.toNat = u.acc

/-! ### The run -/

/-- 70_reset_and_hazards section 2: in a terminal status no step changes anything but what the host does; the model
keeps the state where the spec has no step (DESIGN CHOICE, log 1). That a load there leaves the run's configuration is
the model's inference from the reset rule R106 (DEDUCED, log 9). -/
def Obligations.TerminalStatusIsStable : Prop :=
  ∀ s t : State, s.terminal = true → (∀ d rest, s.inputs ≠ .reset d :: rest) → step s = .next t →
    t.acc = s.acc ∧ t.mem = s.mem ∧ t.pc = s.pc ∧ t.status = s.status ∧ t.fault = s.fault ∧ t.cfg = s.cfg

/-- 70_reset_and_hazards section 2: a run left to itself is in a terminal status after one step for every three bytes
still to come, and one more. Where it ends earlier, the steps left keep the state: the spec has no step there
(DESIGN CHOICE, log 1). -/
def Obligations.EveryRunTerminates : Prop :=
  ∀ s : State, s.engineNext →
    ∃ t, stepN ((s.cfg.image.length - s.pc) / 3 + 1) s = .next t ∧ t.terminal = true

/-- The data memory's canonical form is kept by every step (the model's own form of memory, log 4). -/
def Obligations.MemoryStaysCanonical : Prop :=
  ∀ s t : State, Memory.wf s.mem = true → step s = .next t → Memory.wf t.mem = true

/-- The invariant of the machine is kept by every step: canonical memory within `N`, `0 ≤ pc ≤ L`, a fault record
exactly while FAULTED and at `pc`, HALTED only at the end of the image, legal configurations. The canonical form
is the model's (log 4), and so is that a load reaches the ports alone, not the run's configuration (DEDUCED, log 9). -/
def Obligations.StepKeepsInvariant : Prop :=
  ∀ s t : State, s.Inv → step s = .next t → t.Inv

/-- 60_exceptions sections 1 and 2: a recorded fault always has its cause in the run's image and `N`, through every
step. That a load while FAULTED leaves that image and `N` is the model's inference (DEDUCED,
log 9). -/
def Obligations.StepKeepsFaultExplained : Prop :=
  ∀ s t : State, s.FaultExplained → step s = .next t → t.FaultExplained

/-- The state after reset meets both invariants, with `pc`, status and fault as 10_state section 7 gives them; its
accumulator, memory and configuration are the model's choice (log 3, 4, 5, 6). -/
def Obligations.ResetStateMeetsInvariants : Prop :=
  State.reset.Inv ∧ State.reset.FaultExplained ∧
  State.reset.pc = 0 ∧ State.reset.status = .idle ∧ State.reset.fault = none

/-! ### The host -/

/-- 70_reset_and_hazards section 1 and 10_state section 7, after the spec's own decisions D4, D5, D10 and D15: in every
status a reset sets `pc` 0, IDLE, no fault, the drawn accumulator and cells, and fixes the configuration at the
ports (DEDUCED, log 9). -/
def Obligations.ResetStartsFresh : Prop :=
  ∀ (s : State) (d : Draw) (rest : List HostInput), s.inputs = .reset d :: rest →
    ∃ t, step s = .next t ∧ t.pc = 0 ∧ t.status = .idle ∧ t.fault = none ∧ t.acc = d.acc ∧
      (∀ a, a < s.ports.memCells → t.readCell a = (d.mem.lookup a).getD Config.unlistedCell) ∧
      t.cfg = s.ports ∧ t.ports = s.ports ∧ t.imageMax = s.imageMax ∧ t.inputs = rest

/-- 10_state section 7, 60_exceptions section 3 and 70_reset_and_hazards section 1, after the spec's own decision D15:
nothing of the old run outlives a reset; two machines that agree on the ports and IMAGE_MAX_BYTES are the same after it.
That a reset takes the configuration from the ports is the model's inference (DEDUCED, log 9). -/
def Obligations.ResetForgetsOldRun : Prop :=
  ∀ (s t : State) (d : Draw) (rest : List HostInput), s.inputs = .reset d :: rest → t.inputs = .reset d :: rest →
    s.ports = t.ports → s.imageMax = t.imageMax → step s = step t

/-- 70_reset_and_hazards section 1, after the spec's own decision D10: `start` makes IDLE RUNNING and has no effect in
any other status. -/
def Obligations.StartRunsOnlyFromIdle : Prop :=
  ∀ (s : State) (rest : List HostInput), s.inputs = .start :: rest →
    (s.status = .idle → step s = .next { s with status := .running, inputs := rest }) ∧
    (s.status ≠ .idle → step s = .next { s with inputs := rest })

/-- 70_reset_and_hazards sections 1 and 5: a legal load is taken in every status but RUNNING (the spec's own decision
D10, log 13) and changes the ports alone, not the run's configuration (DEDUCED, log 9); while RUNNING
it has no meaning (log 7), and an illegal one has none: `imageTooLong` where `L` exceeds IMAGE_MAX_BYTES (log 6),
`noMemoryCells` where the image fits and `N` is 0 (log 8). -/
def Obligations.LoadNeedsStoppedEngine : Prop :=
  ∀ (s : State) (c : RunConfig) (rest : List HostInput), s.inputs = .load c :: rest →
    (s.status = .running → step s = .refused .loadWhileRunning) ∧
    (s.status ≠ .running → c.Legal s.imageMax → step s = .next { s with ports := c, inputs := rest }) ∧
    (s.status ≠ .running → s.imageMax < c.image.length → step s = .refused .imageTooLong) ∧
    (s.status ≠ .running → c.image.length ≤ s.imageMax → c.memCells = 0 → step s = .refused .noMemoryCells)

/-- A step answers a next state unless the host's move is a load. For a running engine this rests on 60_exceptions
section 5, every instruction may be executed at any time. In IDLE, HALTED and FAULTED the spec has no engine step, and
that the step answers the state unchanged there is the model's choice (DESIGN CHOICE, log 1). -/
def Obligations.OnlyLoadsAreRefused : Prop :=
  ∀ s : State, (∀ c rest, s.inputs ≠ .load c :: rest) → ∃ t, step s = .next t

/-- 10_state section 1 and 70_reset_and_hazards section 2, after the spec's own decision D14 (the range is looked at
only after a normal halt; log 13): the dump range does not reach the run: two states that differ in it alone step to
states that differ in it alone. -/
def Obligations.DumpRangeDoesNotReachRun : Prop :=
  ∀ (s t : State) (first last : Nat), s.inputs = [] → step s = .next t →
    step (s.withDumpRange first last) = .next (t.withDumpRange first last)

/-- 70_reset_and_hazards R112: after a normal halt with `start ≤ end < N`, the outcome carries the accumulator and the
dump: the range, and `end - start + 1` values, the `k`-th of them cell `start + k`. -/
def Obligations.DumpListsTheRange : Prop :=
  ∀ s : State, s.status = .halted → s.cfg.dumpStart ≤ s.cfg.dumpEnd → s.cfg.dumpEnd < s.cfg.memCells →
    ∃ d : Dump, s.outcome = some (.halted s.acc d) ∧ d.first = s.cfg.dumpStart ∧ d.last = s.cfg.dumpEnd ∧
      d.values.length = s.cfg.dumpEnd - s.cfg.dumpStart + 1 ∧
      ∀ k, k ≤ s.cfg.dumpEnd - s.cfg.dumpStart → d.values[k]? = some (s.readCell (s.cfg.dumpStart + k))

/-- 70_reset_and_hazards section 2, after the spec's own decision D14: an illegal range gives `InvalidAddress` with
`start`, else `end`, after a normal halt only; a faulted run reports its fault whatever the range. -/
def Obligations.DumpErrorNamesTheBadBound : Prop :=
  ∀ s : State,
    (s.status = .halted → s.cfg.memCells ≤ s.cfg.dumpStart →
      s.outcome = some (.dumpError s.cfg.dumpStart)) ∧
    (s.status = .halted → s.cfg.dumpStart < s.cfg.memCells →
      (s.cfg.memCells ≤ s.cfg.dumpEnd ∨ s.cfg.dumpEnd < s.cfg.dumpStart) →
      s.outcome = some (.dumpError s.cfg.dumpEnd)) ∧
    (∀ a, s.outcome = some (.dumpError a) → s.status = .halted) ∧
    (∀ r, s.status = .faulted → s.fault = some r → s.outcome = some (.faulted r))

/-- 70_reset_and_hazards section 2, after the spec's own decision D23: under the invariant there is an outcome exactly
in a terminal status; it is a result only after a normal halt, with the accumulator. The `acc_out` port shows the
accumulator exactly while HALTED, whatever the range (10_state R35), and is a valid final accumulator exactly where
there is a result; `dump_out` has a value exactly there, so under a dump error the port shows the accumulator, and the
host receives neither a valid one nor a dump (R111; DEDUCED, log 12). -/
def Obligations.OutcomeExactlyWhenTerminal : Prop :=
  ∀ s : State, s.Inv →
    (s.outcome.isSome = true ↔ s.terminal = true) ∧
    (∀ v d, s.outcome = some (.halted v d) → s.status = .halted ∧ v = s.acc) ∧
    (∀ v, s.accOut = some v ↔ s.status = .halted ∧ v = s.acc) ∧
    (s.accOutValid = true ↔ ∃ v d, s.outcome = some (.halted v d)) ∧
    (∀ vs, s.dumpOut = some vs ↔ ∃ v d, s.outcome = some (.halted v d) ∧ d.values = vs)

/-- 60_exceptions section 1, after the spec's own decisions D9 and D22: the fault ports after a fault of each kind, and
code 0 under the invariant wherever the status is not FAULTED. -/
def Obligations.FaultPortsReportTheFault : Prop :=
  (∀ (s : State) (o : OpcodeBits) (a : Addr),
    ((s.raiseFault .corruptImage).faultKindOut = 1 ∧ (s.raiseFault .corruptImage).faultInfoOut = none) ∧
    ((s.raiseFault (.invalidOpcode o)).faultKindOut = 2 ∧
      (s.raiseFault (.invalidOpcode o)).faultInfoOut = some o.toNat) ∧
    ((s.raiseFault (.invalidAddress a)).faultKindOut = 3 ∧
      (s.raiseFault (.invalidAddress a)).faultInfoOut = some a.toNat) ∧
    ∀ k : FaultKind, (s.raiseFault k).faultPcOut = some s.pc ∧ (s.raiseFault k).statusOut = .faulted) ∧
  ∀ s : State, s.Inv → (s.faultKindOut = 0 ↔ s.statusOut ≠ .faulted)

/-! ### The assembler -/

/-- 30_encoding sections 4 and 6: the image of a successful assembly is a program's image, decodes back to exactly the
logged instructions, and the log's lines rise; their numbering is the spec's own decision D20 (log 13). -/
def Obligations.AssembledImageDecodesToLog : Prop :=
  ∀ (commentChar : Char) (source : List Char) (a : Assembly), assemble commentChar source = .ok a →
    ∃ is : List Instr, a.image = encodeProgram is ∧ a.log.map (·.instr) = is.map Instr.raw ∧
      a.log.map (·.bytes) = is.map encode ∧ decodeProgram a.image (is.length + 1) 0 = .ok is ∧
      (a.log.map (·.line)).Pairwise (· < ·)

/-- 30_encoding section 6: one forward pass; a text that fails fails with whatever follows it in the same way, and one
that assembles is followed by the assembly of the next lines under their own numbers. That LF ends a line and every line
counts for the numbering is the spec's own decision D20 (R77, log 13). -/
def Obligations.AssemblyIsOneForwardPass : Prop :=
  ∀ (commentChar : Char) (source more : List Char),
    (∀ e, assemble commentChar source = .error e →
      assemble commentChar (source ++ '\n' :: more) = .error e) ∧
    (∀ a b, assemble commentChar source = .ok a →
      assembleLines commentChar (1 + (splitLines source).length) (splitLines more) = .ok b →
      assemble commentChar (source ++ '\n' :: more) =
        .ok { image := a.image ++ b.image, log := a.log ++ b.log }) ∧
    (∀ a e, assemble commentChar source = .ok a →
      assembleLines commentChar (1 + (splitLines source).length) (splitLines more) = .error e →
      assemble commentChar (source ++ '\n' :: more) = .error e)

/-- 30_encoding section 6, after the spec's own decision D17: a blank or comment-only line gives no bytes and no log
entry, and a trailing comment changes nothing. -/
def Obligations.CommentsAndBlankLinesAreSkipped : Prop :=
  ∀ (commentChar : Char) (n : Nat) (line : List Char),
    ((∀ c ∈ lineContent commentChar line, isWhitespace c = true) →
      assembleLine commentChar n line = .ok { image := [], log := [] }) ∧
    ∀ comment : List Char, commentChar ∉ line →
      assembleLine commentChar n (line ++ commentChar :: comment) = assembleLine commentChar n line

/-- 30_encoding section 6, after the spec's own decision D20: any whitespace around and between a designator and
an operand gives exactly those two tokens. -/
def Obligations.LineSplitsIntoTwoTokens : Prop :=
  ∀ before middle after d v : List Char,
    (∀ c ∈ before ++ middle ++ after, isWhitespace c = true) → middle ≠ [] → d ≠ [] → v ≠ [] →
    (∀ c ∈ d ++ v, isWhitespace c = false) →
    tokens (before ++ d ++ middle ++ v ++ after) = [d, v]

/-- 30_encoding section 6, after the spec's own decision D19: a run of decimal digits has its decimal value, as a
numeral and with a sign as a literal, and anything else is no numeral. -/
def Obligations.DecimalLiteralsHaveTheirValue : Prop :=
  (∀ (ds : List Char) (n : Nat), ds ≠ [] → (∀ c ∈ ds, 48 ≤ c.toNat ∧ c.toNat ≤ 57) →
    n = Nat.ofDigits 10 (ds.reverse.map (fun c => c.toNat - 48)) →
    decimal ds = some n ∧ operandToken ds = some (n : Int) ∧ operandToken ('+' :: ds) = some (n : Int) ∧
    operandToken ('-' :: ds) = some (-(n : Int))) ∧
  ∀ (ds : List Char) (c : Char), c ∈ ds → ¬ (48 ≤ c.toNat ∧ c.toNat ≤ 57) → decimal ds = none
end

