-- ==== Sys2Proof/Laws/Decode.lean ====
section
/-! SUPPORT. The laws of the opcode table, the byte lists and the decoder: one inversion lemma for `decode`, and the
agreement of a byte list with its number. -/

namespace Sys2Proof

@[simp] theorem opcodeOfValue_code (op : Opcode) : opcodeOfValue op.code = some op := by
  cases op <;> rfl

/-- The opcode a value stands for has that value as its code. -/
theorem code_of_opcodeOfValue {n : Nat} {op : Opcode} (h : opcodeOfValue n = some op) : op.code = n := by
  unfold opcodeOfValue at h
  split at h <;> first | contradiction | (cases h; rfl)

@[simp] theorem Opcode.withOperand_opcode (op : Opcode) (v : Nat) : (op.withOperand v).opcode = op := by
  cases op <;> rfl

@[simp] theorem Opcode.withOperand_len (op : Opcode) (v : Nat) : (op.withOperand v).len = op.len := by
  simp [Instr.len]

/-- Everything `decode` can answer, in the order of its checks (30_encoding R62 to R65). -/
theorem decode_cases (image : List Byte) (pc : Nat) :
    (image.length ≤ pc ∧ decode image pc = .error .endOfImage) ∨
    (∃ b, image[pc]? = some b ∧ opcodeOfValue (opcodeField b).toNat = none ∧
      decode image pc = .error (.invalidOpcode (opcodeField b))) ∨
    (∃ b op, image[pc]? = some b ∧ opcodeOfValue (opcodeField b).toNat = some op ∧
      ((image.length < pc + op.len ∧ decode image pc = .error (.truncatedInstruction pc)) ∨
       (pc + op.len ≤ image.length ∧
         decode image pc = .ok (op.withOperand (operandField op.width (imageWord image pc op.len)), op.len)))) := by
  unfold decode
  cases hb : image[pc]? with
  | none => exact .inl ⟨by simpa using hb, rfl⟩
  | some b =>
    cases ho : opcodeOfValue (opcodeField b).toNat with
    | none => exact .inr (.inl ⟨b, rfl, ho, by simp [ho]⟩)
    | some op =>
      refine .inr (.inr ⟨b, op, rfl, ho, ?_⟩)
      by_cases hl : image.length < pc + op.len
      · exact .inl ⟨hl, by simp [ho, hl]⟩
      · exact .inr ⟨by omega, by simp [ho, hl]⟩

/-- A successful decode answers the instruction's own length, and the instruction lies in the image. -/
theorem decode_ok {image : List Byte} {pc n : Nat} {i : Instr} (h : decode image pc = .ok (i, n)) :
    n = i.len ∧ pc + n ≤ image.length := by
  rcases decode_cases image pc with ⟨_, e⟩ | ⟨b, _, _, e⟩ | ⟨b, op, _, _, ⟨_, e⟩ | ⟨hl, e⟩⟩ <;> rw [e] at h
  · cases h
  · cases h
  · cases h
  · obtain ⟨rfl, rfl⟩ : _ = i ∧ _ = n := by simpa using h
    exact ⟨by simp, hl⟩

/-- There is no byte to decode exactly at and behind the end of the image. -/
theorem decode_endOfImage {image : List Byte} {pc : Nat} :
    decode image pc = .error .endOfImage ↔ image.length ≤ pc := by
  constructor
  · intro h
    rcases decode_cases image pc with ⟨hl, _⟩ | ⟨b, _, _, e⟩ | ⟨b, op, _, _, ⟨_, e⟩ | ⟨_, e⟩⟩
    · exact hl
    all_goals rw [e] at h; simp at h
  · intro h
    simp [decode, h]

@[simp] theorem bytesOf_length (n w : Nat) : (bytesOf n w).length = n := by
  induction n generalizing w with
  | zero => rfl
  | succ n ih => simp [bytesOf, ih]

/-- The bytes of a number, read back, are the number below its `8·n`-th bit. -/
theorem littleEndian_bytesOf (n w : Nat) : littleEndian (bytesOf n w) = w % 2 ^ (8 * n) := by
  induction n generalizing w with
  | zero => simp [bytesOf, littleEndian, Nat.mod_one]
  | succ n ih =>
    have hp : 2 ^ (8 * (n + 1)) = 256 * 2 ^ (8 * n) := by rw [Nat.mul_add, Nat.pow_add, Nat.mul_comm]
    simp only [bytesOf, littleEndian, ih, BitVec.toNat_ofNat, Nat.shiftLeft_eq, Nat.shiftRight_eq_div_pow, hp]
    rw [Nat.mod_mul, show (2 : Nat) ^ 8 = 256 from rfl, Nat.mul_comm 256]

/-- The bytes of a byte list's number are the list. -/
theorem bytesOf_littleEndian (bs : List Byte) : bytesOf bs.length (littleEndian bs) = bs := by
  induction bs with
  | nil => rfl
  | cons b bs ih =>
    have hb := b.isLt
    simp only [List.length_cons, bytesOf, littleEndian, Nat.shiftLeft_eq, Nat.shiftRight_eq_div_pow]
    congr 1
    · apply BitVec.eq_of_toNat_eq
      simp only [BitVec.toNat_ofNat]
      omega
    · rw [show (b.toNat + littleEndian bs * 2 ^ 8) / 2 ^ 8 = littleEndian bs by omega, ih]

/-- The opcode field of a byte is its value modulo 32. -/
theorem opcodeField_toNat (b : Byte) : (opcodeField b).toNat = b.toNat % 32 := by
  have h : b.toNat &&& 31 = b.toNat % 2 ^ 5 := Nat.and_two_pow_sub_one_eq_mod b.toNat 5
  simp only [opcodeField, BitVec.toNat_setWidth, BitVec.toNat_and]
  change (b.toNat &&& 31) % 2 ^ 5 = _
  omega

/-- The operand field as arithmetic: shifted past the opcode, the padding dropped. -/
theorem operandField_eq (w word : Nat) : operandField w word = word / 32 % 2 ^ w := by
  rw [operandField, Nat.and_two_pow_sub_one_eq_mod, Nat.shiftRight_eq_div_pow]

end Sys2Proof
end

