-- ==== Sys2Proof/Laws/Engine.lean ====
section
/-! SUPPORT. What the step can do, said once: the engine's step by what it finds at `pc`, and the machine's step by
the host's next move. -/

namespace Sys2Proof.Machine

/-- Everything a step of a running engine can do (10_state R29). -/
theorem runStep_cases (s : State) :
    (s.cfg.image.length ≤ s.pc ∧ runStep s = .next s.halt) ∨
    (∃ o, decode s.cfg.image s.pc = .error (.invalidOpcode o) ∧
      runStep s = .next (s.raiseFault (.invalidOpcode o))) ∨
    (∃ p, decode s.cfg.image s.pc = .error (.truncatedInstruction p) ∧
      runStep s = .next (s.raiseFault .corruptImage)) ∨
    (∃ i n, decode s.cfg.image s.pc = .ok (i, n) ∧ runStep s = exec i s) := by
  unfold runStep
  split
  · next h => exact .inl ⟨decode_endOfImage.mp h, rfl⟩
  · next o h => exact .inr (.inl ⟨o, h, rfl⟩)
  · next p h => exact .inr (.inr (.inl ⟨p, h, rfl⟩))
  · next i n h => exact .inr (.inr (.inr ⟨i, n, h, rfl⟩))

@[simp] theorem engineStep_running {s : State} (h : s.status = .running) : engineStep s = runStep s := by
  simp [engineStep, h]

/-- An engine that is not running keeps its state. -/
theorem engineStep_of_not_running {s : State} (h : s.status ≠ .running) : engineStep s = .next s := by
  unfold engineStep
  split <;> simp_all

/-- With no move of the host pending, the step is the engine's. -/
theorem step_of_no_input {s : State} (h : s.inputs = []) : step s = engineStep s := by
  simp [step, h]

/-- With a move of the host pending, the step is that move, taken off the schedule. -/
theorem step_of_input {s : State} {m : HostInput} {rest : List HostInput} (h : s.inputs = m :: rest) :
    step s = hostMove m { s with inputs := rest } := by
  simp [step, h]

/-- Everything a load can do: put the configuration at the ports, or be refused. -/
theorem hostLoad_cases (c : RunConfig) (s : State) :
    (s.status = .running ∧ hostLoad c s = .refused .loadWhileRunning) ∨
    (s.status ≠ .running ∧ s.imageMax < c.image.length ∧ hostLoad c s = .refused .imageTooLong) ∨
    (s.status ≠ .running ∧ c.image.length ≤ s.imageMax ∧ c.memCells = 0 ∧
      hostLoad c s = .refused .noMemoryCells) ∨
    (s.status ≠ .running ∧ c.image.length ≤ s.imageMax ∧ 1 ≤ c.memCells ∧
      hostLoad c s = .next { s with ports := c }) := by
  unfold hostLoad
  cases hs : s.status
  case running => exact .inl ⟨rfl, rfl⟩
  all_goals
    refine .inr ?_
    by_cases h1 : s.imageMax < c.image.length
    · exact .inl ⟨by simp, h1, by simp [h1]⟩
    · by_cases h2 : c.memCells = 0
      · exact .inr (.inl ⟨by simp, by omega, h2, by simp [h1, h2]⟩)
      · exact .inr (.inr ⟨by simp, by omega, by omega, by simp [h1, h2]⟩)

/-- Everything a step of the machine can do, if it answers a next state: an engine step with nothing pending or on a
quiet move, or one of the host's three moves. -/
theorem step_cases {s t : State} (h : step s = .next t) :
    (s.inputs = [] ∧ engineStep s = .next t) ∨
    (∃ rest, s.inputs = .quiet :: rest ∧ engineStep { s with inputs := rest } = .next t) ∨
    (∃ c rest, s.inputs = .load c :: rest ∧ s.status ≠ .running ∧ c.Legal s.imageMax ∧
      t = { s with ports := c, inputs := rest }) ∨
    (∃ d rest, s.inputs = .reset d :: rest ∧ t = hostReset d { s with inputs := rest }) ∨
    (∃ rest, s.inputs = .start :: rest ∧ t = hostStart { s with inputs := rest }) := by
  cases hi : s.inputs with
  | nil => exact .inl ⟨rfl, step_of_no_input hi ▸ h⟩
  | cons m rest =>
    rw [step_of_input hi] at h
    cases m with
    | quiet => exact .inr (.inl ⟨rest, rfl, h⟩)
    | load c =>
      simp only [hostMove] at h
      rcases hostLoad_cases c { s with inputs := rest } with ⟨_, e⟩ | ⟨_, _, e⟩ | ⟨_, _, _, e⟩ | ⟨h1, h2, h3, e⟩ <;>
        rw [e] at h <;> cases h
      exact .inr (.inr (.inl ⟨c, rest, rfl, h1, ⟨h2, h3⟩, rfl⟩))
    | reset d => cases h; exact .inr (.inr (.inr (.inl ⟨d, rest, rfl, rfl⟩)))
    | start => cases h; exact .inr (.inr (.inr (.inr ⟨rest, rfl, rfl⟩)))

end Sys2Proof.Machine
end

