-- ==== Sys2Proof/Laws/HostPort.lean ====
section
/-! SUPPORT. What the outcome of a run can be, said once, and the two result ports. -/

namespace Sys2Proof.Machine

/-- Everything the host can collect, by status (70_reset_and_hazards R111). -/
theorem State.outcome_cases (s : State) :
    ((s.status = .idle ∨ s.status = .running) ∧ s.outcome = none) ∨
    (s.status = .halted ∧ s.cfg.dumpBadAddress = none ∧ s.outcome = some (.halted s.acc s.dump)) ∨
    (∃ a, s.status = .halted ∧ s.cfg.dumpBadAddress = some a ∧ s.outcome = some (.dumpError a)) ∨
    (s.status = .faulted ∧ s.outcome = s.fault.map .faulted) := by
  unfold State.outcome
  cases s.status with
  | idle => exact .inl ⟨.inl rfl, rfl⟩
  | running => exact .inl ⟨.inr rfl, rfl⟩
  | halted =>
    cases h : s.cfg.dumpBadAddress with
    | none => exact .inr (.inl ⟨rfl, rfl, rfl⟩)
    | some a => exact .inr (.inr (.inl ⟨a, rfl, rfl, rfl⟩))
  | faulted => exact .inr (.inr (.inr ⟨rfl, rfl⟩))

theorem State.accOut_of_halted {s : State} (h : s.status = .halted) : s.accOut = some s.acc := by
  simp [State.accOut, h]

theorem State.accOut_of_not_halted {s : State} (h : s.status ≠ .halted) : s.accOut = none := by
  unfold State.accOut
  split
  · contradiction
  · rfl
  · rfl
  · rfl

theorem State.accOutValid_of_result {s : State} {v : Word} {d : Dump} (h : s.outcome = some (.halted v d)) :
    s.accOutValid = true := by
  simp [State.accOutValid, h]

theorem State.accOutValid_of_dumpError {s : State} {a : Nat} (h : s.outcome = some (.dumpError a)) :
    s.accOutValid = false := by
  simp [State.accOutValid, h]

theorem State.accOutValid_of_faulted {s : State} {r : FaultRecord} (h : s.outcome = some (.faulted r)) :
    s.accOutValid = false := by
  simp [State.accOutValid, h]

theorem State.dumpOut_of_result {s : State} {v : Word} {d : Dump} (h : s.outcome = some (.halted v d)) :
    s.dumpOut = some d.values := by
  simp [State.dumpOut, h]

theorem State.dumpOut_of_dumpError {s : State} {a : Nat} (h : s.outcome = some (.dumpError a)) :
    s.dumpOut = none := by
  simp [State.dumpOut, h]

end Sys2Proof.Machine
end

