-- ==== Sys2Proof/Laws/Memory.lean ====
section
/-! SUPPORT. The laws of data memory: a read after a write, and that every memory operation keeps the canonical
form and the bound on addresses. -/

namespace Sys2Proof.Machine

@[simp] theorem readMem_nil (a : Nat) : readMem [] a = Config.unlistedCell := rfl

theorem readMem_consCell (a : Nat) (v : Word) (rest : Memory) (b : Nat)
    (h : readMem rest a = Config.unlistedCell) :
    readMem (consCell a v rest) b = if b = a then v else readMem rest b := by
  unfold consCell
  split
  · next hv => split
               · next hb => rw [hb, h, hv]
               · rfl
  · rfl

theorem Memory.wfFrom_mono {lo lo' : Nat} {m : Memory} (hle : lo' ≤ lo) (h : Memory.wfFrom lo m = true) :
    Memory.wfFrom lo' m = true := by
  cases m with
  | nil => rfl
  | cons e rest =>
    simp only [Memory.wfFrom, Bool.and_eq_true, decide_eq_true_eq] at h ⊢
    exact ⟨⟨by omega, h.1.2⟩, h.2⟩

/-- A canonical memory whose addresses start at `lo` lists no address below `lo`. -/
theorem readMem_below {lo a : Nat} {m : Memory} (h : Memory.wfFrom lo m = true) (ha : a < lo) :
    readMem m a = Config.unlistedCell := by
  induction m generalizing lo with
  | nil => rfl
  | cons e rest ih =>
    simp only [Memory.wfFrom, Bool.and_eq_true, decide_eq_true_eq] at h
    have hne : a ≠ e.1 := by omega
    simpa [readMem, hne] using ih h.2 (by omega)

theorem readMem_writeMem_from {lo : Nat} {m : Memory} (h : Memory.wfFrom lo m = true) (a : Nat) (v : Word) (b : Nat) :
    readMem (writeMem m a v) b = if b = a then v else readMem m b := by
  induction m generalizing lo with
  | nil => exact readMem_consCell a v [] b rfl
  | cons e rest ih =>
    obtain ⟨c, w⟩ := e
    have hw := h
    simp only [Memory.wfFrom, Bool.and_eq_true, decide_eq_true_eq] at h
    unfold writeMem
    split
    · next hlt =>
      have hbelow : readMem ((c, w) :: rest) a = Config.unlistedCell := by
        have hne : a ≠ c := by omega
        simpa [readMem, hne] using readMem_below h.2 (by omega : a < c + 1)
      exact readMem_consCell a v _ b hbelow
    · split
      · next _ heq =>
        subst heq
        rw [readMem_consCell a v rest b (readMem_below h.2 (by omega))]
        by_cases hb : b = a <;> simp [readMem, hb]
      · next _ hne =>
        by_cases hb : b = c
        · have : b ≠ a := by omega
          simp [readMem, hb, Ne.symm hne]
        · simp only [readMem, hb, if_false]
          exact ih h.2

/-- Reading after a write in a canonical memory: the written value at the written cell, and every other cell as
before (20_memory R50). -/
theorem readMem_writeMem {m : Memory} (h : Memory.wf m = true) (a : Nat) (v : Word) (b : Nat) :
    readMem (writeMem m a v) b = if b = a then v else readMem m b :=
  readMem_writeMem_from h a v b

theorem consCell_wfFrom {lo a : Nat} {v : Word} {rest : Memory} (hlo : lo ≤ a)
    (h : Memory.wfFrom (a + 1) rest = true) : Memory.wfFrom lo (consCell a v rest) = true := by
  unfold consCell
  split
  · exact Memory.wfFrom_mono (by omega) h
  · next hv => simp [Memory.wfFrom, hlo, hv, h]

theorem writeMem_wfFrom {lo a : Nat} {v : Word} {m : Memory} (hlo : lo ≤ a) (h : Memory.wfFrom lo m = true) :
    Memory.wfFrom lo (writeMem m a v) = true := by
  induction m generalizing lo with
  | nil => exact consCell_wfFrom hlo rfl
  | cons e rest ih =>
    obtain ⟨c, w⟩ := e
    have hw := h
    simp only [Memory.wfFrom, Bool.and_eq_true, decide_eq_true_eq] at h
    unfold writeMem
    split
    · next hlt =>
      exact consCell_wfFrom hlo (by simp [Memory.wfFrom, h.1.2, h.2]; omega)
    · split
      · next _ heq => exact consCell_wfFrom hlo (heq ▸ h.2)
      · next hlt hne =>
        simp only [Memory.wfFrom, Bool.and_eq_true, decide_eq_true_eq]
        exact ⟨h.1, ih (by omega) h.2⟩

/-- A write keeps the canonical form. -/
theorem writeMem_wf {m : Memory} (h : Memory.wf m = true) (a : Nat) (v : Word) :
    Memory.wf (writeMem m a v) = true :=
  writeMem_wfFrom (Nat.zero_le a) h

theorem mem_consCell {a : Nat} {v : Word} {rest : Memory} {e : MemCell} (h : e ∈ consCell a v rest) :
    e = (a, v) ∨ e ∈ rest := by
  unfold consCell at h
  split at h
  · exact .inr h
  · simpa using h

/-- What a write lists is the written cell or was listed before. -/
theorem mem_writeMem {m : Memory} {a : Nat} {v : Word} {e : MemCell} (h : e ∈ writeMem m a v) :
    e = (a, v) ∨ e ∈ m := by
  induction m with
  | nil => exact mem_consCell h
  | cons c rest ih =>
    obtain ⟨b, w⟩ := c
    unfold writeMem at h
    split at h
    · exact mem_consCell h
    · split at h
      · exact (mem_consCell h).imp_right (List.mem_cons_of_mem _)
      · rcases List.mem_cons.mp h with h | h
        · exact .inr (h ▸ List.mem_cons_self)
        · exact (ih h).imp_right (List.mem_cons_of_mem _)

/-- The memory a reset draws is canonical. -/
theorem drawnMem_wf (n : Nat) (d : List MemCell) : Memory.wf (drawnMem n d) = true := by
  induction d with
  | nil => rfl
  | cons e rest ih =>
    unfold drawnMem
    split
    · exact writeMem_wf ih _ _
    · exact ih

/-- The memory a reset draws lists no address at or above `N`. -/
theorem drawnMem_lt {n : Nat} {d : List MemCell} {e : MemCell} (h : e ∈ drawnMem n d) : e.1 < n := by
  induction d with
  | nil => simp [drawnMem] at h
  | cons c rest ih =>
    unfold drawnMem at h
    split at h
    · next hlt => rcases mem_writeMem h with h | h
                  · exact h ▸ hlt
                  · exact ih h
    · exact ih h

/-- The canonical form is kept by the memory of the reset state. -/
theorem State.reset_wf : Memory.wf State.reset.mem = true := rfl

end Sys2Proof.Machine
end

