-- ==== Sys2Proof/Laws/Operands.lean ====
section
/-! SUPPORT. One lemma per shared operation of the meanings, saying once what it answers, and the small facts of the
operand forms and of the comparison. -/

namespace Sys2Proof.Machine

@[simp] theorem constantValue_eq (imm : Const) : constantValue imm = imm := by
  simp [constantValue]

@[simp] theorem cellIndex_eq (addr : Addr) : cellIndex addr = addr.toNat := rfl

theorem State.validCell_iff (s : State) (a : Nat) : s.validCell a = true ↔ a < s.cfg.memCells := by
  simp [State.validCell]

/-- On a valid address: the access and the advance. -/
theorem withCell_of_lt {addr : Addr} {s : State} (h : addr.toNat < s.cfg.memCells) (len : Nat)
    (access : Nat → State → State) :
    withCell addr len access s = .next ((access addr.toNat s).advance len) :=
  if_pos ((State.validCell_iff s _).mpr h)

/-- On any other address: InvalidAddress. -/
theorem withCell_of_le {addr : Addr} {s : State} (h : s.cfg.memCells ≤ addr.toNat) (len : Nat)
    (access : Nat → State → State) :
    withCell addr len access s = .next (s.raiseFault (.invalidAddress addr)) :=
  if_neg (fun hv => Nat.not_lt.mpr h ((State.validCell_iff s _).mp hv))

/-- Everything a checked access can do: the access and the advance on a valid address, the fault on another. -/
theorem withCell_cases (addr : Addr) (len : Nat) (access : Nat → State → State) (s : State) :
    (addr.toNat < s.cfg.memCells ∧ withCell addr len access s = .next ((access addr.toNat s).advance len)) ∨
    (s.cfg.memCells ≤ addr.toNat ∧ withCell addr len access s = .next (s.raiseFault (.invalidAddress addr))) :=
  (Nat.lt_or_ge addr.toNat s.cfg.memCells).imp (fun h => ⟨h, withCell_of_lt h len access⟩)
    (fun h => ⟨h, withCell_of_le h len access⟩)

/-- The comparison of MIN_OP is that of the unsigned values. -/
theorem isSmaller_iff (m acc : Word) : isSmaller m acc = true ↔ m.toNat < acc.toNat := by
  simp [isSmaller, BitVec.ult]

/-- The selected value is the unsigned minimum. -/
theorem unsignedMin_toNat (m acc : Word) : (unsignedMin m acc).toNat = min m.toNat acc.toNat := by
  unfold unsignedMin
  by_cases h : isSmaller m acc = true
  · rw [if_pos h]; have := (isSmaller_iff m acc).mp h; omega
  · rw [if_neg h]; have := mt (isSmaller_iff m acc).mpr h; omega

/-- The length in the advance of each instruction is the length its encoding has. -/
theorem Instr.len_cases (i : Instr) :
    (∃ imm, i = .loadConst imm ∧ i.len = 5) ∨
    (∃ addr, (i = .memoryWrite addr ∨ i = .minOp addr ∨ i = .memoryRead addr) ∧ i.len = 3) := by
  cases i with
  | loadConst imm => exact .inl ⟨imm, rfl, rfl⟩
  | memoryWrite a => exact .inr ⟨a, .inl rfl, rfl⟩
  | minOp a => exact .inr ⟨a, .inr (.inl rfl), rfl⟩
  | memoryRead a => exact .inr ⟨a, .inr (.inr rfl), rfl⟩

/-- Everything an instruction can do: its effect and the advance by its length, or InvalidAddress. -/
theorem exec_cases (i : Instr) (s : State) :
    (∃ t : State, exec i s = .next (t.advance i.len) ∧
      ((∃ imm, i = .loadConst imm ∧ t = s.setAcc imm) ∨
       (∃ addr, i = .memoryWrite addr ∧ addr.toNat < s.cfg.memCells ∧ t = s.writeCell addr.toNat s.acc) ∨
       (∃ addr, i = .minOp addr ∧ addr.toNat < s.cfg.memCells ∧
         t = s.setAcc (unsignedMin (s.readCell addr.toNat) s.acc)) ∨
       (∃ addr, i = .memoryRead addr ∧ addr.toNat < s.cfg.memCells ∧ t = s.setAcc (s.readCell addr.toNat)))) ∨
    (∃ addr, (i = .memoryWrite addr ∨ i = .minOp addr ∨ i = .memoryRead addr) ∧ s.cfg.memCells ≤ addr.toNat ∧
      exec i s = .next (s.raiseFault (.invalidAddress addr))) := by
  cases i with
  | loadConst imm =>
    exact .inl ⟨_, by simp [exec, execLoadConst, Instr.len, Instr.opcode], .inl ⟨imm, rfl, rfl⟩⟩
  | memoryWrite addr =>
    rcases withCell_cases addr Opcode.memoryWrite.len (fun a t => t.writeCell a t.acc) s with ⟨h, e⟩ | ⟨h, e⟩
    · exact .inl ⟨_, e, .inr (.inl ⟨addr, rfl, h, rfl⟩)⟩
    · exact .inr ⟨addr, .inl rfl, h, e⟩
  | minOp addr =>
    rcases withCell_cases addr Opcode.minOp.len
      (fun a t => t.setAcc (unsignedMin (t.readCell a) t.acc)) s with ⟨h, e⟩ | ⟨h, e⟩
    · exact .inl ⟨_, e, .inr (.inr (.inl ⟨addr, rfl, h, rfl⟩))⟩
    · exact .inr ⟨addr, .inr (.inl rfl), h, e⟩
  | memoryRead addr =>
    rcases withCell_cases addr Opcode.memoryRead.len (fun a t => t.setAcc (t.readCell a)) s with ⟨h, e⟩ | ⟨h, e⟩
    · exact .inl ⟨_, e, .inr (.inr (.inr ⟨addr, rfl, h, rfl⟩))⟩
    · exact .inr ⟨addr, .inr (.inr rfl), h, e⟩

end Sys2Proof.Machine
end

