-- ==== Sys2Proof/Laws/PerInstr.lean ====
section
/-! SUPPORT. What holds of every instruction as a term, one lemma per constructor. -/

namespace Sys2Proof.Laws.Width

/-- The instruction is well formed, its encoding has the length of its opcode, and its opcode value fits the 5-bit
field (00_scope R6, R16). -/
def Statement (i : Instr) : Prop :=
  i.wellFormed = true ∧ (encode i).length = i.len ∧ i.opcode.code < 2 ^ 5

theorem loadConst (imm : Const) : Statement (.loadConst imm) := by
  have h := imm.isLt
  refine ⟨?_, by simp [encode, encodeFields, Instr.len], by simp [Instr.opcode, Opcode.code]⟩
  simp [Instr.wellFormed, RawInstr.wellFormed, RawInstr.opcodeAssigned, RawInstr.operandFits, Instr.raw]
  omega

theorem memoryWrite (addr : Addr) : Statement (.memoryWrite addr) := by
  have h := addr.isLt
  refine ⟨?_, by simp [encode, encodeFields, Instr.len], by simp [Instr.opcode, Opcode.code]⟩
  simp [Instr.wellFormed, RawInstr.wellFormed, RawInstr.opcodeAssigned, RawInstr.operandFits, Instr.raw]
  omega

theorem minOp (addr : Addr) : Statement (.minOp addr) := by
  have h := addr.isLt
  refine ⟨?_, by simp [encode, encodeFields, Instr.len], by simp [Instr.opcode, Opcode.code]⟩
  simp [Instr.wellFormed, RawInstr.wellFormed, RawInstr.opcodeAssigned, RawInstr.operandFits, Instr.raw]
  omega

theorem memoryRead (addr : Addr) : Statement (.memoryRead addr) := by
  have h := addr.isLt
  refine ⟨?_, by simp [encode, encodeFields, Instr.len], by simp [Instr.opcode, Opcode.code]⟩
  simp [Instr.wellFormed, RawInstr.wellFormed, RawInstr.opcodeAssigned, RawInstr.operandFits, Instr.raw]
  omega

end Sys2Proof.Laws.Width
end

