-- ==== Sys2Proof/Laws/State.lean ====
section
/-! SUPPORT. What each state update does to each field, true by unfolding, so that no proof unfolds a record update. -/

namespace Sys2Proof.Machine

/-! ### `State.setAcc` -/

@[simp] theorem State.setAcc_acc (s : State) (v : Word) : (s.setAcc v).acc = v := rfl
@[simp] theorem State.setAcc_mem (s : State) (v : Word) : (s.setAcc v).mem = s.mem := rfl
@[simp] theorem State.setAcc_pc (s : State) (v : Word) : (s.setAcc v).pc = s.pc := rfl
@[simp] theorem State.setAcc_status (s : State) (v : Word) : (s.setAcc v).status = s.status := rfl
@[simp] theorem State.setAcc_fault (s : State) (v : Word) : (s.setAcc v).fault = s.fault := rfl
@[simp] theorem State.setAcc_cfg (s : State) (v : Word) : (s.setAcc v).cfg = s.cfg := rfl
@[simp] theorem State.setAcc_ports (s : State) (v : Word) : (s.setAcc v).ports = s.ports := rfl
@[simp] theorem State.setAcc_imageMax (s : State) (v : Word) : (s.setAcc v).imageMax = s.imageMax := rfl
@[simp] theorem State.setAcc_inputs (s : State) (v : Word) : (s.setAcc v).inputs = s.inputs := rfl

/-! ### `State.writeCell` -/

@[simp] theorem State.writeCell_acc (s : State) (a : Nat) (v : Word) : (s.writeCell a v).acc = s.acc := rfl
@[simp] theorem State.writeCell_mem (s : State) (a : Nat) (v : Word) : (s.writeCell a v).mem = writeMem s.mem a v := rfl
@[simp] theorem State.writeCell_pc (s : State) (a : Nat) (v : Word) : (s.writeCell a v).pc = s.pc := rfl
@[simp] theorem State.writeCell_status (s : State) (a : Nat) (v : Word) : (s.writeCell a v).status = s.status := rfl
@[simp] theorem State.writeCell_fault (s : State) (a : Nat) (v : Word) : (s.writeCell a v).fault = s.fault := rfl
@[simp] theorem State.writeCell_cfg (s : State) (a : Nat) (v : Word) : (s.writeCell a v).cfg = s.cfg := rfl
@[simp] theorem State.writeCell_ports (s : State) (a : Nat) (v : Word) : (s.writeCell a v).ports = s.ports := rfl
@[simp] theorem State.writeCell_imageMax (s : State) (a : Nat) (v : Word) : (s.writeCell a v).imageMax = s.imageMax := rfl
@[simp] theorem State.writeCell_inputs (s : State) (a : Nat) (v : Word) : (s.writeCell a v).inputs = s.inputs := rfl

/-! ### `State.advance` -/

@[simp] theorem State.advance_acc (s : State) (n : Nat) : (s.advance n).acc = s.acc := rfl
@[simp] theorem State.advance_mem (s : State) (n : Nat) : (s.advance n).mem = s.mem := rfl
@[simp] theorem State.advance_pc (s : State) (n : Nat) : (s.advance n).pc = s.pc + n := rfl
@[simp] theorem State.advance_status (s : State) (n : Nat) : (s.advance n).status = s.status := rfl
@[simp] theorem State.advance_fault (s : State) (n : Nat) : (s.advance n).fault = s.fault := rfl
@[simp] theorem State.advance_cfg (s : State) (n : Nat) : (s.advance n).cfg = s.cfg := rfl
@[simp] theorem State.advance_ports (s : State) (n : Nat) : (s.advance n).ports = s.ports := rfl
@[simp] theorem State.advance_imageMax (s : State) (n : Nat) : (s.advance n).imageMax = s.imageMax := rfl
@[simp] theorem State.advance_inputs (s : State) (n : Nat) : (s.advance n).inputs = s.inputs := rfl

/-! ### `State.halt` -/

@[simp] theorem State.halt_acc (s : State) : s.halt.acc = s.acc := rfl
@[simp] theorem State.halt_mem (s : State) : s.halt.mem = s.mem := rfl
@[simp] theorem State.halt_pc (s : State) : s.halt.pc = s.pc := rfl
@[simp] theorem State.halt_status (s : State) : s.halt.status = .halted := rfl
@[simp] theorem State.halt_fault (s : State) : s.halt.fault = s.fault := rfl
@[simp] theorem State.halt_cfg (s : State) : s.halt.cfg = s.cfg := rfl
@[simp] theorem State.halt_ports (s : State) : s.halt.ports = s.ports := rfl
@[simp] theorem State.halt_imageMax (s : State) : s.halt.imageMax = s.imageMax := rfl
@[simp] theorem State.halt_inputs (s : State) : s.halt.inputs = s.inputs := rfl

/-! ### `State.raiseFault` -/

@[simp] theorem State.raiseFault_acc (s : State) (k : FaultKind) : (s.raiseFault k).acc = s.acc := rfl
@[simp] theorem State.raiseFault_mem (s : State) (k : FaultKind) : (s.raiseFault k).mem = s.mem := rfl
@[simp] theorem State.raiseFault_pc (s : State) (k : FaultKind) : (s.raiseFault k).pc = s.pc := rfl
@[simp] theorem State.raiseFault_status (s : State) (k : FaultKind) : (s.raiseFault k).status = .faulted := rfl
@[simp] theorem State.raiseFault_fault (s : State) (k : FaultKind) : (s.raiseFault k).fault = some { kind := k, faultPc := s.pc } := rfl
@[simp] theorem State.raiseFault_cfg (s : State) (k : FaultKind) : (s.raiseFault k).cfg = s.cfg := rfl
@[simp] theorem State.raiseFault_ports (s : State) (k : FaultKind) : (s.raiseFault k).ports = s.ports := rfl
@[simp] theorem State.raiseFault_imageMax (s : State) (k : FaultKind) : (s.raiseFault k).imageMax = s.imageMax := rfl
@[simp] theorem State.raiseFault_inputs (s : State) (k : FaultKind) : (s.raiseFault k).inputs = s.inputs := rfl

/-! ### `State.withImage` and `State.withDumpRange`: only the configuration changes -/

@[simp] theorem State.withImage_acc (s : State) (image : List Byte) : (s.withImage image).acc = s.acc := rfl
@[simp] theorem State.withImage_mem (s : State) (image : List Byte) : (s.withImage image).mem = s.mem := rfl
@[simp] theorem State.withImage_pc (s : State) (image : List Byte) : (s.withImage image).pc = s.pc := rfl
@[simp] theorem State.withImage_status (s : State) (image : List Byte) : (s.withImage image).status = s.status := rfl
@[simp] theorem State.withImage_fault (s : State) (image : List Byte) : (s.withImage image).fault = s.fault := rfl
@[simp] theorem State.withImage_ports (s : State) (image : List Byte) : (s.withImage image).ports = s.ports := rfl
@[simp] theorem State.withImage_imageMax (s : State) (image : List Byte) : (s.withImage image).imageMax = s.imageMax := rfl
@[simp] theorem State.withImage_inputs (s : State) (image : List Byte) : (s.withImage image).inputs = s.inputs := rfl
@[simp] theorem State.withImage_memCells (s : State) (image : List Byte) : (s.withImage image).cfg.memCells = s.cfg.memCells := rfl
@[simp] theorem State.withImage_dumpStart (s : State) (image : List Byte) : (s.withImage image).cfg.dumpStart = s.cfg.dumpStart := rfl
@[simp] theorem State.withImage_dumpEnd (s : State) (image : List Byte) : (s.withImage image).cfg.dumpEnd = s.cfg.dumpEnd := rfl
@[simp] theorem State.withImage_image (s : State) (image : List Byte) : (s.withImage image).cfg.image = image := rfl
@[simp] theorem State.withDumpRange_acc (s : State) (a b : Nat) : (s.withDumpRange a b).acc = s.acc := rfl
@[simp] theorem State.withDumpRange_mem (s : State) (a b : Nat) : (s.withDumpRange a b).mem = s.mem := rfl
@[simp] theorem State.withDumpRange_pc (s : State) (a b : Nat) : (s.withDumpRange a b).pc = s.pc := rfl
@[simp] theorem State.withDumpRange_status (s : State) (a b : Nat) : (s.withDumpRange a b).status = s.status := rfl
@[simp] theorem State.withDumpRange_fault (s : State) (a b : Nat) : (s.withDumpRange a b).fault = s.fault := rfl
@[simp] theorem State.withDumpRange_ports (s : State) (a b : Nat) : (s.withDumpRange a b).ports = s.ports := rfl
@[simp] theorem State.withDumpRange_imageMax (s : State) (a b : Nat) : (s.withDumpRange a b).imageMax = s.imageMax := rfl
@[simp] theorem State.withDumpRange_inputs (s : State) (a b : Nat) : (s.withDumpRange a b).inputs = s.inputs := rfl
@[simp] theorem State.withDumpRange_image (s : State) (a b : Nat) : (s.withDumpRange a b).cfg.image = s.cfg.image := rfl
@[simp] theorem State.withDumpRange_memCells (s : State) (a b : Nat) : (s.withDumpRange a b).cfg.memCells = s.cfg.memCells := rfl
@[simp] theorem State.withDumpRange_dumpStart (s : State) (a b : Nat) : (s.withDumpRange a b).cfg.dumpStart = a := rfl
@[simp] theorem State.withDumpRange_dumpEnd (s : State) (a b : Nat) : (s.withDumpRange a b).cfg.dumpEnd = b := rfl

/-! ### `hostReset` -/

@[simp] theorem hostReset_acc (d : Draw) (s : State) : (hostReset d s).acc = d.acc := rfl
@[simp] theorem hostReset_mem (d : Draw) (s : State) : (hostReset d s).mem = drawnMem s.ports.memCells d.mem := rfl
@[simp] theorem hostReset_pc (d : Draw) (s : State) : (hostReset d s).pc = 0 := rfl
@[simp] theorem hostReset_status (d : Draw) (s : State) : (hostReset d s).status = .idle := rfl
@[simp] theorem hostReset_fault (d : Draw) (s : State) : (hostReset d s).fault = none := rfl
@[simp] theorem hostReset_cfg (d : Draw) (s : State) : (hostReset d s).cfg = s.ports := rfl
@[simp] theorem hostReset_ports (d : Draw) (s : State) : (hostReset d s).ports = s.ports := rfl
@[simp] theorem hostReset_imageMax (d : Draw) (s : State) : (hostReset d s).imageMax = s.imageMax := rfl
@[simp] theorem hostReset_inputs (d : Draw) (s : State) : (hostReset d s).inputs = s.inputs := rfl

/-! ### `hostStart`: only the status can change -/

@[simp] theorem hostStart_acc (s : State) : (hostStart s).acc = s.acc := by
  unfold hostStart; split <;> rfl
@[simp] theorem hostStart_mem (s : State) : (hostStart s).mem = s.mem := by
  unfold hostStart; split <;> rfl
@[simp] theorem hostStart_pc (s : State) : (hostStart s).pc = s.pc := by
  unfold hostStart; split <;> rfl
@[simp] theorem hostStart_fault (s : State) : (hostStart s).fault = s.fault := by
  unfold hostStart; split <;> rfl
@[simp] theorem hostStart_cfg (s : State) : (hostStart s).cfg = s.cfg := by
  unfold hostStart; split <;> rfl
@[simp] theorem hostStart_ports (s : State) : (hostStart s).ports = s.ports := by
  unfold hostStart; split <;> rfl
@[simp] theorem hostStart_imageMax (s : State) : (hostStart s).imageMax = s.imageMax := by
  unfold hostStart; split <;> rfl
@[simp] theorem hostStart_inputs (s : State) : (hostStart s).inputs = s.inputs := by
  unfold hostStart; split <;> rfl

/-- `start` acts from IDLE alone (70_reset_and_hazards R109). -/
theorem hostStart_status (s : State) :
    (hostStart s).status = if s.status = .idle then .running else s.status := by
  unfold hostStart; split <;> simp_all

end Sys2Proof.Machine
end

