-- ==== Sys2Proof/Tests/Slice0.lean ====
section
/-! SUPPORT. The model's own tests. Expected values come from 95_test_vectors.md (S, V and P entries) or from hand
calculation by the rule each comment cites; the last part holds, for each statement with hypotheses, a state and
operands that meet them. -/

namespace Sys2Proof.Tests

open Sys2Proof.Machine

/-! ### WellFormed refuses -/

/-- 99 is no opcode (S7). -/
theorem test_wf_refuses_opcode : RawInstr.wellFormed { opcode := 99, operand := 5 } = false := by decide
/-- 2^29 does not fit 29 bits (V-ENC-7). -/
theorem test_wf_refuses_constant : RawInstr.wellFormed { opcode := 14, operand := 536870912 } = false := by decide
/-- 2^17 does not fit 17 bits (V-ENC-8). -/
theorem test_wf_refuses_address : RawInstr.wellFormed { opcode := 25, operand := 131072 } = false := by decide
/-- A negative operand (30_encoding R69). -/
theorem test_wf_refuses_negative : RawInstr.wellFormed { opcode := 20, operand := -1 } = false := by decide
/-- The boundaries are accepted (S2). -/
theorem test_wf_accepts_boundaries : RawInstr.wellFormed { opcode := 14, operand := 536870911 } = true ∧
    RawInstr.wellFormed { opcode := 15, operand := 131071 } = true := by decide

/-! ### Decoding and encoding, words written out from the spec's tables -/

/-- Operand bit 28 is bit 1 of byte 4 (V-DEC-4), operand bits 2..0 are bits 7..5 of byte 0 (V-DEC-5). -/
theorem test_decode_loadConst : decode [0x0E, 0x00, 0x00, 0x00, 0x02] 0 = .ok (.loadConst 268435456, 5) ∧
    decode [0xAE, 0x00, 0x00, 0x00, 0x00] 0 = .ok (.loadConst 5, 5) := by decide
/-- R57: 761 = 0b01011_11100_1: bytes 001_01111, 01011111, 00000000. -/
theorem test_decode_memoryWrite : decode [0b00101111, 0b01011111, 0b00000000] 0 = .ok (.memoryWrite 761, 3) := by
  decide
/-- R57: opcode 10100, operand bit 16 alone is bit 5 of byte 2, at offset 1 of the image. -/
theorem test_decode_minOp : decode [0xFF, 0b00010100, 0b00000000, 0b00100000] 1 = .ok (.minOp 65536, 3) := by decide
/-- V-DEC-11. -/
theorem test_decode_memoryRead : decode [0x19, 0x80, 0x00] 0 = .ok (.memoryRead 1024, 3) := by decide
/-- V-DEC-12, V-DEC-17: the opcode is checked before the length. -/
theorem test_decode_invalid : decode [0x00] 0 = .error (.invalidOpcode 0) ∧
    decode [0xFF, 0x00, 0x00] 0 = .error (.invalidOpcode 31) := by decide
/-- V-DEC-18, V-DEC-20. -/
theorem test_decode_truncated : decode [0x2E, 0x10, 0x00, 0x00] 0 = .error (.truncatedInstruction 0) ∧
    decode [0x59, 0x01] 0 = .error (.truncatedInstruction 0) := by decide
/-- S2, V-ENC-5, V-ENC-6. -/
theorem test_encode : encode (.loadConst 42) = [0x4E, 0x05, 0x00, 0x00, 0x00] ∧
    encode (.memoryRead 9999) = [0xF9, 0xE1, 0x04] ∧ encode (.memoryWrite 131071) = [0xEF, 0xFF, 0x3F] ∧
    encode (.minOp 131071) = [0xF4, 0xFF, 0x3F] := by decide
/-- V-ENC-11: the opcode is checked first. -/
theorem test_encode_order : encodeRaw { opcode := 99, operand := 1099511627776 } = .error .invalidOpcode := by decide
/-- The words of the opcode table, operand bits zero. -/
theorem test_table_words : decodeTableWord 40 14 = some (.loadConst 0) ∧ decodeTableWord 24 15 = some (.memoryWrite 0) ∧
    decodeTableWord 24 20 = some (.minOp 0) ∧ decodeTableWord 24 25 = some (.memoryRead 0) := by decide

/-! ### One step each -/

/-- A running machine at offset 0 of an image, with an accumulator and listed cells, `N = 1024`. -/
def demo (image : List Byte) (acc : Word) (mem : Memory) : State :=
  { State.reset with
    acc := acc, mem := mem, status := .running
    cfg := { image := image, memCells := 1024, dumpStart := 0, dumpEnd := 0 } }

/-- The accumulator, `pc` and status after a step. -/
def after (s : State) : Option (Word × Nat × Status) :=
  match step s with
  | .next t => some (t.acc, t.pc, t.status)
  | _ => none

/-- V-LC-1. -/
theorem test_loadConst : after (demo [0x0E, 0x00, 0x00, 0x00, 0x00] 99 []) = some (0, 5, .running) := by decide
/-- V-LC-4: a truncated LOAD_CONST. -/
theorem test_loadConst_truncated : step (demo [0x2E, 0x10, 0x00, 0x00] 7 []) =
    .next ((demo [0x2E, 0x10, 0x00, 0x00] 7 []).raiseFault .corruptImage) := by rfl
/-- V-MR-2: the last valid cell. -/
theorem test_memoryRead : after (demo [0xF9, 0x7F, 0x00] 1 [(1023, 5)]) = some (5, 3, .running) := by decide
/-- S6. -/
theorem test_memoryRead_faults : step (demo [0xF9, 0xE1, 0x04] 1 []) =
    .next ((demo [0xF9, 0xE1, 0x04] 1 []).raiseFault (.invalidAddress 9999)) := by rfl
/-- V-MW-1, and the cell beside it stays. -/
theorem test_memoryWrite : step (demo [0x0F, 0x00, 0x00] 42 [(1, 9)]) =
    .next { demo [0x0F, 0x00, 0x00] 42 [(1, 9)] with mem := [(0, 42), (1, 9)], pc := 3 } := by rfl
/-- Writing 0 takes the entry out again, so equal memories are equal lists. -/
theorem test_memoryWrite_zero : step (demo [0x4F, 0x00, 0x00] 0 [(1, 9), (2, 8)]) =
    .next { demo [0x4F, 0x00, 0x00] 0 [(1, 9), (2, 8)] with mem := [(1, 9)], pc := 3 } := by rfl
/-- V-MIN-6: unsigned, 2^28 against 5. -/
theorem test_minOp : after (demo [0x14, 0x00, 0x00] 268435456 [(0, 5)]) = some (5, 3, .running) := by decide
/-- V-MIN-4: the accumulator 0 stays against the largest cell value. -/
theorem test_minOp_zero : after (demo [0x14, 0x00, 0x00] 0 [(0, 536870911)]) = some (0, 3, .running) := by decide
/-- V-STEP-1: an empty image halts at once. -/
theorem test_halt : after (demo [] 3 []) = some (3, 0, .halted) := by decide
/-- P6: padding bits set. -/
theorem test_padding : after (demo [0x2E, 0x10, 0x00, 0x00, 0xFC] 0 []) = some (129, 5, .running) := by decide
/-- The opcode table's MIN_OP word runs as the first instruction after reset. -/
theorem test_withFetchWord : step (State.reset.withFetchWord 24 20) =
    exec (.minOp 0) (State.reset.withFetchWord 24 20) := by rfl

/-! ### The host -/

/-- A reset draws the accumulator and the cells below `N`, and latches the ports. -/
theorem test_reset : step { demo [0x0E] 1 [(4, 4)] with inputs := [.reset { acc := 7, mem := [(3, 5), (3, 6), (2000, 1)] }] } =
    .next { State.reset with acc := 7, mem := [(3, 5)] } := by rfl
/-- A load while RUNNING is refused by name (70_reset_and_hazards R118). -/
theorem test_load_running : step { demo [0x0E] 1 [] with inputs := [.load RunConfig.reference] } =
    .refused .loadWhileRunning := by rfl
/-- V-DUMP-1, V-DUMP-4, V-DUMP-6: the end state of P1 under three dump ranges. -/
def halted (first last : Nat) : State :=
  { demo (encodeProgram [.loadConst 42, .memoryWrite 0, .loadConst 17, .minOp 0]) 17 [(0, 42)] with
    status := .halted, pc := 16
    cfg := { image := encodeProgram [.loadConst 42, .memoryWrite 0, .loadConst 17, .minOp 0], memCells := 1024,
             dumpStart := first, dumpEnd := last } }
theorem test_dump : (halted 0 0).outcome = some (.halted 17 { first := 0, last := 0, values := [42] }) := by decide
theorem test_dump_errors : (halted 0 1024).outcome = some (.dumpError 1024) ∧
    (halted 5 2).outcome = some (.dumpError 2) := by decide

/-- R35 and R111: HALTED shows the accumulator at the port under either range; under an illegal one it is no valid
final accumulator. -/
theorem test_accOut : (halted 0 0).accOut = some 17 ∧ (halted 0 1024).accOut = some 17 ∧
    (halted 0 0).accOutValid = true ∧ (halted 0 1024).accOutValid = false ∧ (halted 0 1024).dumpOut = none := by decide

/-! ### The assembler -/

/-- The image of an assembly, as numbers. -/
def imageOf (text : String) : Except AsmError (List Nat) :=
  match assemble Config.refCommentChar text.toList with
  | .ok a => .ok (a.image.map BitVec.toNat)
  | .error e => .error e

/-- V-ASM-1. -/
theorem test_assemble_comments : imageOf "# header\nLOAD 5  # five\n\nWRITE 3" =
    .ok [0xAE, 0, 0, 0, 0, 0x6F, 0, 0] := by decide
/-- S4, lines 1 and 4. -/
theorem test_assemble_names : imageOf "LOAD 129\nMIN_OP 935" = .ok [0x2E, 0x10, 0, 0, 0, 0xF4, 0x74, 0] := by decide
/-- V-ASM-7, V-ASM-8, V-ASM-9, V-ASM-11, V-ASM-15. -/
theorem test_assemble_errors : imageOf "load 1" = .error (.malformedInstruction 1) ∧
    imageOf "99 5" = .error (.invalidOpcode 1) ∧ imageOf "99 abc" = .error (.malformedInstruction 1) ∧
    imageOf "READ -1" = .error (.operandOutOfRange 1) ∧
    imageOf "LOAD 1\nBAD\nLOAD 2" = .error (.malformedInstruction 2) := by decide
/-- The log of S4's first line. -/
theorem test_assemble_log : assembleLine Config.refCommentChar 1 "LOAD 129".toList = .ok
    { image := [0x2E, 0x10, 0x00, 0x00, 0x00]
      log := [{ line := 1, instr := { opcode := 14, operand := 129 }, bytes := [0x2E, 0x10, 0x00, 0x00, 0x00]
                hex := "2E10000000".toList }] } := by decide

/-! ### Witnesses: for each statement with hypotheses, what meets them -/

theorem witness_DecodeIgnoresPadding :
    (demo [0x14, 0x00, 0xC0] 1 []).engineNext ∧
    holdsAt (demo [0x14, 0x00, 0xC0] 1 []).cfg.image 0 (bytesWithPadding (.minOp 0) 3) ∧
    holdsAt [0x14, 0x00, 0x40, 0x0E] 0 (bytesWithPadding (.minOp 0) 1) := by decide
theorem witness_DecodeEncodeRoundTrip : RawInstr.wellFormed { opcode := 14, operand := 536870911 } = true ∧
    holdsAt [0x00, 0xEE, 0xFF, 0xFF, 0xFF, 0x03] 1 (encode (.loadConst 536870911)) := by decide
theorem witness_EncodeFailsExactlyOnBadPairs :
    RawInstr.opcodeAssigned { opcode := 13, operand := 0 } = false ∧
    RawInstr.opcodeAssigned { opcode := 15, operand := 131072 } = true ∧
    RawInstr.operandFits { opcode := 15, operand := 131072 } = false ∧
    RawInstr.wellFormed { opcode := 15, operand := 131071 } = true := by decide
theorem witness_UnassignedOpcodeFaults : (demo [0x0D] 1 []).engineNext ∧
    (demo [0x0D] 1 []).cfg.image[0]? = some 0x0D ∧ (0x0D : Byte).toNat % 32 ∉ [14, 15, 20, 25] := by decide
theorem witness_TruncationIsCorruptImage_short : (demo [0x59, 0x01] 1 []).engineNext ∧
    (demo [0x59, 0x01] 1 []).cfg.image[0]? = some 0x59 ∧ (0x59 : Byte).toNat % 32 = Opcode.memoryRead.code ∧
    (demo [0x59, 0x01] 1 []).cfg.image.length < 0 + Opcode.memoryRead.len := by decide
theorem witness_TruncationIsCorruptImage_exact : (demo [0x59, 0x01, 0x00] 1 []).engineNext ∧
    (demo [0x59, 0x01, 0x00] 1 []).cfg.image[0]? = some 0x59 ∧ (0x59 : Byte).toNat % 32 = Opcode.memoryRead.code ∧
    0 + Opcode.memoryRead.len ≤ (demo [0x59, 0x01, 0x00] 1 []).cfg.image.length := by decide
theorem witness_DecodedFieldsAreImageBits : decode [0xEF, 0xFF, 0xFF] 0 = .ok (.memoryWrite 131071, 3) := by decide
theorem witness_DecodeReadsOnlyItsBytes : decode [0x59, 0x01, 0x00, 0x00] 0 = .ok (.memoryRead 10, 3) ∧
    holdsAt [0x59, 0x01, 0x00] 0 (([0x59, 0x01, 0x00, 0x00].drop 0).take 3) ∧
    decode [0x00, 0x01] 0 = .error (.invalidOpcode 0) ∧ ([0x00, 0x02] : List Byte)[0]? = ([0x00, 0x01] : List Byte)[0]? := by
  decide
theorem witness_StepRunsDecodedInstruction : (demo [0x0F, 0x00, 0x00] 1 []).status = .running ∧
    decode (demo [0x0F, 0x00, 0x00] 1 []).cfg.image 0 = .ok (.memoryWrite 0, 3) ∧
    Instr.wellFormed (.memoryWrite 0) = true ∧ (demo [0x0F, 0x00, 0x00] 1 []).inputs = [] ∧
    ({ demo [0x0F, 0x00, 0x00] 1 [] with inputs := [.quiet] } : State).status = .running ∧
    ({ demo [0x0F, 0x00, 0x00] 1 [] with inputs := [.quiet] } : State).cfg = (demo [0x0F, 0x00, 0x00] 1 []).cfg ∧
    ({ demo [0x0F, 0x00, 0x00] 1 [] with inputs := [.quiet] } : State).inputs = .quiet :: [] := by decide
/-- A running machine with a quiet move and a reset to come. -/
def quietly (image : List Byte) : State :=
  { demo image 1 [] with inputs := [.quiet, .reset { acc := 0, mem := [] }] }
theorem witness_StepRunsDecodedInstruction_quiet :
    ((quietly []).status = .running ∧ (quietly []).inputs = .quiet :: [.reset { acc := 0, mem := [] }] ∧
      (quietly []).cfg.image.length ≤ (quietly []).pc) ∧
    ((quietly [0x0D]).status = .running ∧ (quietly [0x0D]).inputs = .quiet :: [.reset { acc := 0, mem := [] }] ∧
      decode (quietly [0x0D]).cfg.image 0 = .error (.invalidOpcode 13)) ∧
    ((quietly [0x0E]).status = .running ∧ (quietly [0x0E]).inputs = .quiet :: [.reset { acc := 0, mem := [] }] ∧
      decode (quietly [0x0E]).cfg.image 0 = .error (.truncatedInstruction 0)) := by decide
theorem witness_HaltExactlyAtEndOfImage : (demo [] 1 []).engineNext ∧
    (demo [] 1 []).cfg.image.length ≤ (demo [] 1 []).pc ∧
    after (demo [] 1 []) = some (1, 0, .halted) := by decide
/-- For MemoryReadCompletes, MemoryWriteCompletes, MinOpCompletes and BackToBackDependencies: the last valid cell. -/
theorem witness_cell_valid : (1023 : Addr).toNat < (demo [] 1 []).cfg.memCells ∧
    Memory.wf (demo [] 1 [(1023, 5)]).mem = true := by decide
/-- For InvalidAddressExactlyOutOfBounds: the first address that is no cell. -/
theorem witness_cell_invalid : (demo [] 1 []).cfg.memCells ≤ (1024 : Addr).toNat ∧
    exec (.minOp 1024) (demo [] 1 []) = .next ((demo [] 1 []).raiseFault (.invalidAddress 1024)) ∧
    ((demo [] 1 []).raiseFault (.invalidAddress 1024)).fault ≠ (demo [] 1 []).fault := by
  refine ⟨by decide, rfl, by decide⟩
theorem witness_LoadConstFromImage : (demo (f5Bytes 14 129 63) 1 []).engineNext ∧
    holdsAt (demo (f5Bytes 14 129 63) 1 []).cfg.image 0 (f5Bytes 14 129 63) := by decide
theorem witness_LoadConstFromImage_short : (demo [0x2E, 0x10, 0x00, 0x00] 1 []).engineNext ∧
    (demo [0x2E, 0x10, 0x00, 0x00] 1 []).cfg.image[0]? = some 0x2E ∧ (0x2E : Byte).toNat % 32 = 14 ∧
    (demo [0x2E, 0x10, 0x00, 0x00] 1 []).cfg.image.length < 0 + 5 := by decide
theorem witness_MemoryReadFromImage_last_and_first_bad : (demo (f3Bytes 25 1023 3) 1 []).engineNext ∧
    holdsAt (demo (f3Bytes 25 1023 3) 1 []).cfg.image 0 (f3Bytes 25 1023 3) ∧
    holdsAt (demo (f3Bytes 25 1024 3) 1 []).cfg.image 0 (f3Bytes 25 1024 3) := by decide
theorem witness_CellHoldsLatestWrite : Memory.wf (demo [] 1 []).mem = true ∧
    execAll [.memoryWrite 3, .loadConst 4, .memoryWrite 5] (demo [] 1 []) =
      some { demo [] 4 [(3, 1), (5, 4)] with pc := 11 } ∧
    .memoryWrite 7 ∉ [Instr.memoryWrite 3, .loadConst 4, .memoryWrite 5] ∧
    [Instr.memoryWrite 3, .loadConst 4, .memoryWrite 5] = [] ++ .memoryWrite 3 :: [.loadConst 4, .memoryWrite 5] ∧
    .memoryWrite 3 ∉ [Instr.loadConst 4, .memoryWrite 5] := by
  refine ⟨rfl, rfl, by decide, rfl, by decide⟩
theorem witness_MemoryWriteFromImage : (demo (f3Bytes 15 1023 0) 9 []).engineNext ∧
    Memory.wf (demo (f3Bytes 15 1023 0) 9 []).mem = true ∧
    holdsAt (demo (f3Bytes 15 1023 0) 9 []).cfg.image 0 (f3Bytes 15 1023 0) ∧
    holdsAt (demo (f3Bytes 15 1024 0) 9 []).cfg.image 0 (f3Bytes 15 1024 0) := by decide
/-- The run after the write: another cell is written before the first is read. -/
theorem witness_MemoryWriteFromImage_run :
    execAll [.loadConst 4, .memoryWrite 5] { demo (f3Bytes 15 1023 0) 9 [] with mem := [(1023, 9)], pc := 3 } =
      some { demo (f3Bytes 15 1023 0) 4 [(5, 4), (1023, 9)] with pc := 11 } ∧
    .memoryWrite 1023 ∉ [Instr.loadConst 4, .memoryWrite 5] :=
  ⟨rfl, by decide⟩
theorem witness_MinOpFromImage : (demo (f3Bytes 20 1023 2) 9 []).engineNext ∧
    holdsAt (demo (f3Bytes 20 1023 2) 9 []).cfg.image 0 (f3Bytes 20 1023 2) ∧
    holdsAt (demo (f3Bytes 20 131071 2) 9 []).cfg.image 0 (f3Bytes 20 131071 2) := by decide
theorem witness_FrameOfAccumulatorInstructions : Instr.opcode (.minOp 0) ≠ .memoryWrite ∧
    exec (.minOp 0) (demo [] 4 []) = .next { demo [] 0 [] with pc := 3 } := ⟨by decide, rfl⟩
theorem witness_FrameOfMemoryWrite : Memory.wf (demo [] 4 []).mem = true ∧
    exec (.memoryWrite 2) (demo [] 4 []) = .next { demo [] 4 [(2, 4)] with pc := 3 } ∧ 3 ≠ cellIndex 2 := by
  refine ⟨by decide, rfl, by decide⟩
theorem witness_FaultingStepChangesNothingElse : (demo [0x00] 4 []).engineNext ∧
    step (demo [0x00] 4 []) = .next ((demo [0x00] 4 []).raiseFault (.invalidOpcode 0)) ∧
    ((demo [0x00] 4 []).raiseFault (.invalidOpcode 0)).status = .faulted := by
  refine ⟨by decide, rfl, rfl⟩
theorem witness_PcChangesOnlyByInstructionLength : (demo [0x0F, 0x00, 0x00] 4 []).engineNext ∧
    step (demo [0x0F, 0x00, 0x00] 4 []) = .next { demo [0x0F, 0x00, 0x00] 4 [(0, 4)] with pc := 3 } := by
  refine ⟨by decide, rfl⟩
theorem witness_ConfigurationChangesOnlyByHost : step (demo [] 4 []) = .next (demo [] 4 []).halt ∧
    (∀ d rest, (demo [] 4 []).inputs ≠ .reset d :: rest) ∧ (∀ c rest, (demo [] 4 []).inputs ≠ .load c :: rest) :=
  ⟨rfl, fun _ _ => (List.cons_ne_nil _ _).symm, fun _ _ => (List.cons_ne_nil _ _).symm⟩
/-- A machine with more cells than an address can name. -/
def wide : State :=
  { demo [] 4 [(131072, 6)] with cfg := { image := [], memCells := 131073, dumpStart := 0, dumpEnd := 0 } }
theorem witness_HighCellsUnreachable : Memory.wf wide.mem = true ∧ 2 ^ 17 ≤ 131072 ∧
    exec (.memoryWrite 131071) wide = .next { wide with mem := [(131071, 4), (131072, 6)], pc := 3 } := by
  refine ⟨by decide, by decide, rfl⟩
theorem witness_HighCellsUnreachable_unread : Memory.wf wide.mem = true ∧ Memory.wf [(131072, 9)] = true ∧
    (∀ a, a < 2 ^ 17 → readMem [(131072, 9)] a = wide.readCell a) ∧
    exec (.memoryRead 131071) wide = .next { wide with acc := 0, pc := 3 } := by
  refine ⟨by decide, by decide, fun a h => ?_, rfl⟩
  have : a ≠ 131072 := by omega
  simp [wide, demo, State.readCell, readMem, this]
theorem witness_TerminalStatusIsStable : (halted 0 0).terminal = true ∧
    (∀ d rest, (halted 0 0).inputs ≠ .reset d :: rest) ∧ step (halted 0 0) = .next (halted 0 0) :=
  ⟨by decide, fun _ _ => (List.cons_ne_nil _ _).symm, rfl⟩
theorem witness_EveryRunTerminates : (demo [0x2E, 0x00] 4 []).engineNext := by decide
theorem witness_MemoryStaysCanonical : Memory.wf (demo [] 4 [(1, 2), (7, 1)]).mem = true ∧
    step (demo [] 4 [(1, 2), (7, 1)]) = .next (demo [] 4 [(1, 2), (7, 1)]).halt := ⟨by decide, rfl⟩
/-- For StepKeepsInvariant and FaultPortsReportTheFault: the invariant holds of a state in the middle of a run, which is not the reset state. -/
theorem witness_StepKeepsInvariant : (demo [0x0F, 0x00, 0x00] 4 [(1, 2)]).Inv where
  memCanonical := by decide
  memInBounds := by decide
  pcInImage := by decide
  faultWhileFaulted := by decide
  faultAtPc := fun _ h => by cases h
  haltedAtEnd := by decide
  idleAtStart := by decide
  cfgLegal := ⟨by decide, by decide⟩
  portsLegal := ⟨by decide, by decide⟩
/-- A faulted state whose record is explained by its image. -/
theorem witness_StepKeepsFaultExplained : ((demo [0x0D] 4 []).raiseFault (.invalidOpcode 13)).FaultExplained := by
  rintro r ⟨⟩
  rfl
theorem witness_ResetStartsFresh :
    ({ demo [] 4 [] with inputs := [.reset { acc := 1, mem := [(1023, 9)] }] } : State).inputs =
      .reset { acc := 1, mem := [(1023, 9)] } :: [] ∧ 1023 < (demo [] 4 []).ports.memCells := by decide
/-- Two unlike machines with the same reset to come. -/
def resetting (image : List Byte) (acc : Word) : State :=
  { demo image acc [] with inputs := [.reset { acc := 1, mem := [] }] }
theorem witness_ResetForgetsOldRun :
    (resetting [0x0E] 4).inputs = .reset { acc := 1, mem := [] } :: [] ∧
    (resetting [] 5).inputs = .reset { acc := 1, mem := [] } :: [] ∧
    (resetting [0x0E] 4).ports = (resetting [] 5).ports ∧
    (resetting [0x0E] 4).imageMax = (resetting [] 5).imageMax ∧ resetting [0x0E] 4 ≠ resetting [] 5 := by decide
theorem witness_StartRunsOnlyFromIdle :
    ({ State.reset with inputs := [.start] } : State).inputs = .start :: [] ∧
    ({ State.reset with inputs := [.start] } : State).status = .idle ∧
    ({ halted 0 0 with inputs := [.start] } : State).inputs = .start :: [] ∧
    ({ halted 0 0 with inputs := [.start] } : State).status ≠ .idle := by decide
/-- A host about to load; the configurations below are the clauses' own: legal with an image of exactly
IMAGE_MAX_BYTES, one byte too long (also without cells), and without cells but fitting. -/
def loading (s : State) (c : RunConfig) : State := { s with imageMax := 2, inputs := [.load c] }
theorem witness_LoadNeedsStoppedEngine_running :
    (loading (demo [] 4 []) RunConfig.reference).inputs = .load RunConfig.reference :: [] ∧
    (loading (demo [] 4 []) RunConfig.reference).status = .running := by decide
theorem witness_LoadNeedsStoppedEngine_legal :
    (loading (halted 0 0) { RunConfig.reference with image := [0, 0] }).inputs =
      .load { RunConfig.reference with image := [0, 0] } :: [] ∧
    (loading (halted 0 0) { RunConfig.reference with image := [0, 0] }).status ≠ .running ∧
    RunConfig.Legal (loading (halted 0 0) RunConfig.reference).imageMax { RunConfig.reference with image := [0, 0] } :=
  ⟨rfl, by decide, ⟨by decide, by decide⟩⟩
theorem witness_LoadNeedsStoppedEngine_tooLong :
    (loading (halted 0 0) { RunConfig.reference with image := [0, 0, 0], memCells := 0 }).inputs =
      .load { RunConfig.reference with image := [0, 0, 0], memCells := 0 } :: [] ∧
    (loading (halted 0 0) { RunConfig.reference with image := [0, 0, 0], memCells := 0 }).status ≠ .running ∧
    (loading (halted 0 0) RunConfig.reference).imageMax < ([0, 0, 0] : List Byte).length := by decide
theorem witness_LoadNeedsStoppedEngine_noCells :
    (loading (halted 0 0) { RunConfig.reference with image := [0, 0], memCells := 0 }).inputs =
      .load { RunConfig.reference with image := [0, 0], memCells := 0 } :: [] ∧
    (loading (halted 0 0) { RunConfig.reference with image := [0, 0], memCells := 0 }).status ≠ .running ∧
    ([0, 0] : List Byte).length ≤ (loading (halted 0 0) RunConfig.reference).imageMax := by decide
theorem witness_OnlyLoadsAreRefused : ∀ c rest, State.reset.inputs ≠ .load c :: rest := by
  intro c rest h
  cases h
theorem witness_DumpRangeDoesNotReachRun : (demo [] 4 []).inputs = [] ∧
    step (demo [] 4 []) = .next (demo [] 4 []).halt := ⟨rfl, rfl⟩
theorem witness_DumpListsTheRange : (halted 1023 1023).status = .halted ∧
    (halted 1023 1023).cfg.dumpStart ≤ (halted 1023 1023).cfg.dumpEnd ∧
    (halted 1023 1023).cfg.dumpEnd < (halted 1023 1023).cfg.memCells := by decide
theorem witness_DumpErrorNamesTheBadBound :
    ((halted 1024 0).status = .halted ∧ (halted 1024 0).cfg.memCells ≤ (halted 1024 0).cfg.dumpStart) ∧
    ((halted 1023 1024).cfg.dumpStart < (halted 1023 1024).cfg.memCells ∧
      (halted 1023 1024).cfg.memCells ≤ (halted 1023 1024).cfg.dumpEnd) ∧
    ((halted 1 0).cfg.dumpStart < (halted 1 0).cfg.memCells ∧ (halted 1 0).cfg.dumpEnd < (halted 1 0).cfg.dumpStart) ∧
    (halted 1 0).outcome = some (.dumpError 0) ∧
    ((demo [] 4 []).raiseFault .corruptImage).status = .faulted ∧
    ((demo [] 4 []).raiseFault .corruptImage).fault = some { kind := .corruptImage, faultPc := 0 } := by decide
theorem witness_OutcomeExactlyWhenTerminal : (halted 0 0).Inv ∧ (halted 0 0).outcome =
    some (.halted 17 { first := 0, last := 0, values := [42] }) where
  left :=
    { memCanonical := by decide
      memInBounds := by decide
      pcInImage := by decide
      faultWhileFaulted := by decide
      faultAtPc := fun _ h => by cases h
      haltedAtEnd := by decide
      idleAtStart := by decide
      cfgLegal := ⟨by decide, by decide⟩
      portsLegal := ⟨by decide, by decide⟩ }
  right := by decide
theorem witness_AssembledImageDecodesToLog : ∃ a, assemble '#' "READ 1".toList = .ok a := ⟨_, rfl⟩
theorem witness_AssemblyIsOneForwardPass : assemble '#' "BAD".toList = .error (.malformedInstruction 1) ∧
    assemble '#' "# x".toList = .ok { image := [], log := [] } ∧
    assembleLines '#' 2 (splitLines "\n".toList) = .ok { image := [], log := [] } ∧
    assembleLines '#' 2 (splitLines "BAD".toList) = .error (.malformedInstruction 2) := by decide
theorem witness_CommentsAndBlankLinesAreSkipped :
    (∀ c ∈ lineContent '#' [' ', '\t', '#', 'x'], isWhitespace c = true) ∧ '#' ∉ ['R', ' ', '1', ' '] := by
  constructor <;> simp [lineContent, isWhitespace]
theorem witness_LineSplitsIntoTwoTokens :
    (∀ c ∈ [' '] ++ ['\t', ' '] ++ ['\r'], isWhitespace c = true) ∧ ['\t', ' '] ≠ [] ∧ ['M', 'I', 'N'] ≠ [] ∧
    ['1', '2'] ≠ [] ∧ (∀ c ∈ ['M', 'I', 'N'] ++ ['1', '2'], isWhitespace c = false) := by
  simp [isWhitespace]
theorem witness_DecimalLiteralsHaveTheirValue : ['0', '1', '2'] ≠ [] ∧
    (∀ c ∈ ['0', '1', '2'], 48 ≤ c.toNat ∧ c.toNat ≤ 57) ∧
    12 = Nat.ofDigits 10 (['0', '1', '2'].reverse.map (fun c => c.toNat - 48)) ∧
    '.' ∈ ['1', '.', '5'] ∧ ¬ (48 ≤ '.'.toNat ∧ '.'.toNat ≤ 57) :=
  ⟨by decide, by simp, by norm_num [Nat.ofDigits]; decide, by decide, by decide⟩

end Sys2Proof.Tests
end

section
/-! The engine's step and `pc` (10_state R27, R29, R32): what an instruction and the engine's step do to `pc` and the
status, and the statements about them. -/

namespace Sys2Proof.Machine

/-- With a running engine and no move of the host pending, the step is the engine's (10_state R29). -/
theorem step_of_engineNext {s : State} (h : s.engineNext) : step s = runStep s := by
  obtain ⟨hrun, hin⟩ := h
  rw [step_of_no_input hin, engineStep_running hrun]

/-- At the end of the image the engine halts (10_state R27, R30). -/
theorem runStep_of_length_le {s : State} (h : s.cfg.image.length ≤ s.pc) : runStep s = .next s.halt := by
  simp [runStep, decode_endOfImage.mpr h]

/-- What an instruction does to `pc` and the status: the advance by its length, the status kept, or a fault with `pc`
kept (10_state R29, 60_exceptions R89). -/
theorem exec_pc_status {i : Instr} {s t : State} (h : exec i s = .next t) :
    (t.pc = s.pc + i.len ∧ t.status = s.status) ∨ (t.pc = s.pc ∧ t.status = .faulted) := by
  rcases exec_cases i s with ⟨u, e, hu⟩ | ⟨addr, _, _, e⟩ <;> rw [e] at h <;> cases h
  · left
    rcases hu with ⟨_, _, rfl⟩ | ⟨_, _, _, rfl⟩ | ⟨_, _, _, rfl⟩ | ⟨_, _, _, rfl⟩ <;> simp
  · exact .inr ⟨rfl, rfl⟩

/-- What a step of the running engine does to `pc` and the status: the halt at the end of the image, a fault with `pc`
kept, or the advance by the length of the instruction decoded at `pc` (10_state R29, R32). -/
theorem runStep_pc_status {s t : State} (h : runStep s = .next t) :
    (s.cfg.image.length ≤ s.pc ∧ t.pc = s.pc ∧ t.status = .halted) ∨
    (t.pc = s.pc ∧ t.status = .faulted) ∨
    (∃ i : Instr, decode s.cfg.image s.pc = .ok (i, i.len) ∧ t.pc = s.pc + i.len ∧ t.status = s.status) := by
  rcases runStep_cases s with ⟨hend, e⟩ | ⟨o, _, e⟩ | ⟨p, _, e⟩ | ⟨i, n, hdec, e⟩ <;> rw [e] at h
  · cases h; exact .inl ⟨hend, rfl, rfl⟩
  · cases h; exact .inr (.inl ⟨rfl, rfl⟩)
  · cases h; exact .inr (.inl ⟨rfl, rfl⟩)
  · obtain ⟨rfl, _⟩ := decode_ok hdec
    exact .inr ((exec_pc_status h).symm.imp_right fun hadv => ⟨i, hdec, hadv⟩)

/-- Settles O25: the halt and a fault keep `pc` and stop the engine, and an executed instruction advances `pc` by its
length. -/
theorem pcChangesOnlyByInstructionLength : Obligations.PcChangesOnlyByInstructionLength := by
  intro s t hs h
  rw [step_of_engineNext hs] at h
  rcases runStep_pc_status h with ⟨_, hpc, hst⟩ | ⟨hpc, hst⟩ | ⟨i, hdec, hpc, hst⟩
  · exact .inl ⟨hpc, by simp [hst]⟩
  · exact .inl ⟨hpc, by simp [hst]⟩
  · exact .inr ⟨hst.trans hs.1, i, hdec, hpc⟩

/-- Settles O12: the engine's step halts at the end of the image, and every other step ends FAULTED or RUNNING. -/
theorem haltExactlyAtEndOfImage : Obligations.HaltExactlyAtEndOfImage := by
  intro s hs
  rw [step_of_engineNext hs]
  refine ⟨runStep_of_length_le, fun t h ht => ?_⟩
  rcases runStep_pc_status h with ⟨hend, _⟩ | ⟨_, hst⟩ | ⟨_, _, _, hst⟩
  · exact hend
  · simp [hst] at ht
  · simp [hst, hs.1] at ht

end Sys2Proof.Machine
end

section
/-! The fields of the opcode table and of an instruction (00_scope R6, R16): ranges, and an instruction as the pair of
its opcode and operand. -/

namespace Sys2Proof

theorem Opcode.code_lt (op : Opcode) : op.code < 32 := by
  cases op <;> decide

theorem Opcode.len_pos (op : Opcode) : 0 < op.len := by
  cases op <;> decide

/-- The opcode and operand fields lie in the bytes of the instruction (30_encoding R56). -/
theorem Opcode.width_add_five_le (op : Opcode) : op.width + 5 ≤ 8 * op.len := by
  cases op <;> decide

theorem Instr.operand_lt (i : Instr) : i.operand < 2 ^ i.opcode.width := by
  cases i with
  | loadConst imm => exact imm.isLt
  | memoryWrite addr => exact addr.isLt
  | minOp addr => exact addr.isLt
  | memoryRead addr => exact addr.isLt

/-- An instruction is its opcode with its operand. -/
@[simp] theorem Instr.opcode_withOperand_operand (i : Instr) : i.opcode.withOperand i.operand = i := by
  cases i <;> simp [Instr.opcode, Instr.operand, Opcode.withOperand]

/-- An operand in range is kept by the instruction made of it. -/
theorem Opcode.withOperand_operand {op : Opcode} {v : Nat} (h : v < 2 ^ op.width) :
    (op.withOperand v).operand = v := by
  cases op <;> exact Nat.mod_eq_of_lt h

theorem Instr.raw_eq (i : Instr) : i.raw = { opcode := i.opcode.code, operand := i.operand } := by
  cases i <;> rfl

end Sys2Proof
end

section
/-! What the encoder answers on an unchecked pair (30_encoding R69, R70). -/

namespace Sys2Proof

/-- The assigned opcodes are those of the opcode table. -/
theorem RawInstr.opcodeAssigned_iff (r : RawInstr) :
    r.opcodeAssigned = true ↔ ∃ op, opcodeOfValue r.opcode = some op := by
  constructor
  · intro h
    simp only [RawInstr.opcodeAssigned, Bool.or_eq_true, beq_iff_eq] at h
    rcases h with ((h | h) | h) | h <;> rw [h] <;> exact ⟨_, rfl⟩
  · rintro ⟨op, h⟩
    rw [RawInstr.opcodeAssigned, ← code_of_opcodeOfValue h]
    cases op <;> rfl

/-- An operand fits where it is below `2^W` of its opcode. -/
theorem RawInstr.operandFits_iff {r : RawInstr} {op : Opcode} (h : opcodeOfValue r.opcode = some op) :
    r.operandFits = true ↔ 0 ≤ r.operand ∧ r.operand < 2 ^ op.width := by
  rw [RawInstr.operandFits, ← code_of_opcodeOfValue h]
  cases op <;> simp [Opcode.code, Opcode.width]

/-- Everything `encodeRaw` can answer, in the order of its checks (30_encoding R70). -/
theorem encodeRaw_cases (r : RawInstr) :
    (r.opcodeAssigned = false ∧ encodeRaw r = .error .invalidOpcode) ∨
    (r.opcodeAssigned = true ∧ r.operandFits = false ∧ encodeRaw r = .error .operandOutOfRange) ∨
    (∃ op, r.opcodeAssigned = true ∧ r.operandFits = true ∧ opcodeOfValue r.opcode = some op ∧
      encodeRaw r = .ok (encodeFields op r.operand.toNat)) := by
  cases ho : opcodeOfValue r.opcode with
  | none =>
    have ha : ¬ r.opcodeAssigned = true := by simp [RawInstr.opcodeAssigned_iff, ho]
    exact .inl ⟨by simpa using ha, by simp [encodeRaw, ho]⟩
  | some op =>
    have ha : r.opcodeAssigned = true := r.opcodeAssigned_iff.mpr ⟨op, ho⟩
    by_cases hf : r.operandFits = true
    · have hr := (RawInstr.operandFits_iff ho).mp hf
      exact .inr (.inr ⟨op, ha, hf, rfl, by simp only [encodeRaw, ho]; exact if_neg (by omega)⟩)
    · have hr := mt (RawInstr.operandFits_iff ho).mpr hf
      exact .inr (.inl ⟨ha, by simpa using hf, by simp only [encodeRaw, ho]; exact if_pos (by omega)⟩)

/-- A well-formed pair is an instruction: its opcode with its operand (00_scope R16). -/
theorem RawInstr.exists_instr_of_wellFormed {r : RawInstr} (h : r.wellFormed = true) : ∃ i : Instr, i.raw = r := by
  obtain ⟨ha, hf⟩ : r.opcodeAssigned = true ∧ r.operandFits = true := by simpa [RawInstr.wellFormed] using h
  obtain ⟨op, ho⟩ := r.opcodeAssigned_iff.mp ha
  obtain ⟨hpos, hlt⟩ := (RawInstr.operandFits_iff ho).mp hf
  have hv : r.operand.toNat < 2 ^ op.width := by
    zify
    rwa [Int.toNat_of_nonneg hpos]
  refine ⟨op.withOperand r.operand.toNat, ?_⟩
  simp [Instr.raw_eq, Opcode.withOperand_operand hv, code_of_opcodeOfValue ho, hpos]

/-- On an instruction's own opcode and operand the encoder succeeds with the instruction's bytes. -/
theorem encodeRaw_raw (i : Instr) : encodeRaw i.raw = .ok (encode i) := by
  have hlt : (i.operand : Int) < 2 ^ i.opcode.width := by exact_mod_cast i.operand_lt
  simp only [Instr.raw_eq, encodeRaw, opcodeOfValue_code, Int.toNat_natCast]
  exact if_neg (by omega)

/-- Settles O4: each of the three answers of `encode` rules out the conditions of the other two. -/
theorem encodeFailsExactlyOnBadPairs : Obligations.EncodeFailsExactlyOnBadPairs := by
  intro r
  rcases encodeRaw_cases r with ⟨ha, e⟩ | ⟨ha, hf, e⟩ | ⟨op, ha, hf, _, e⟩
  · simp [e, ha, RawInstr.wellFormed]
  · simp [e, ha, hf, RawInstr.wellFormed]
  · simp [e, ha, hf, RawInstr.wellFormed]

end Sys2Proof
end

section
/-! Decoding the bytes of an instruction (30_encoding R62 to R66, R72). The instruction word is
`opcode + 32·(operand + 2^W·padding)`; any bytes with such a word decode to the instruction, so the round trip and the
padding rule both follow from the value of the word. -/

namespace Sys2Proof

open Sys2Proof.Machine

@[simp] theorem littleEndian_cons (b : Byte) (rest : List Byte) :
    littleEndian (b :: rest) = b.toNat + 256 * littleEndian rest := by
  rw [littleEndian, Nat.shiftLeft_eq, Nat.mul_comm]

/-- After an assigned opcode only the length check and the operand field are left of `decode` (30_encoding R64,
R65). -/
theorem decode_of_opcode {image : List Byte} {pc : Nat} {b : Byte} {op : Opcode} (hb : image[pc]? = some b)
    (hop : b.toNat % 32 = op.code) :
    decode image pc = if image.length < pc + op.len then .error (.truncatedInstruction pc)
      else .ok (op.withOperand (operandField op.width (imageWord image pc op.len)), op.len) := by
  simp [decode, hb, opcodeField_toNat, hop]

/-- Bytes the image holds at an offset lie in the image. -/
theorem holdsAt_length_le {image bs : List Byte} {p : Nat} (h : holdsAt image p bs) (hpos : 0 < bs.length) :
    p + bs.length ≤ image.length := by
  have hlen := congrArg List.length h
  simp only [List.length_take, List.length_drop] at hlen
  omega

/-- The first of the bytes the image holds at an offset is the image's byte there. -/
theorem holdsAt_getElem? {image rest : List Byte} {p : Nat} {b : Byte} (h : holdsAt image p (b :: rest)) :
    image[p]? = some b := by
  have hhead := congrArg (·[0]?) h
  simpa using hhead

/-- The operand field of a word drops the opcode below it and the padding above it (30_encoding R65, R66). -/
theorem operandField_word {c w v : Nat} (hc : c < 32) (hv : v < 2 ^ w) (k : Nat) :
    operandField w (c + 32 * (v + 2 ^ w * k)) = v := by
  rw [operandField_eq, Nat.add_mul_div_left _ _ (by decide), Nat.div_eq_of_lt hc, Nat.zero_add,
    Nat.add_mul_mod_self_left, Nat.mod_eq_of_lt hv]

/-- Bytes whose word carries an instruction's opcode and operand decode to it, whatever `k` the padding bits are. -/
theorem decode_of_word {i : Instr} {bs image : List Byte} {p k : Nat} (hlen : bs.length = i.len)
    (hword : littleEndian bs = i.opcode.code + 32 * (i.operand + 2 ^ i.opcode.width * k))
    (h : holdsAt image p bs) : decode image p = .ok (i, i.len) := by
  have hc := i.opcode.code_lt
  replace hlen : bs.length = i.opcode.len := hlen
  have hpos : 0 < bs.length := hlen ▸ i.opcode.len_pos
  have hfits : p + i.opcode.len ≤ image.length := hlen ▸ holdsAt_length_le h hpos
  have himg : imageWord image p i.opcode.len = littleEndian bs := by rw [imageWord, ← hlen, h]
  cases bs with
  | nil => exact absurd hpos (Nat.lt_irrefl 0)
  | cons b rest =>
    have hop : b.toNat % 32 = i.opcode.code := by
      rw [littleEndian_cons] at hword
      omega
    rw [decode_of_opcode (holdsAt_getElem? h) hop, if_neg (Nat.not_lt.mpr hfits), himg, hword,
      operandField_word hc i.operand_lt, Instr.opcode_withOperand_operand]
    rfl

/-- The word of an instruction's canonical bytes: no padding (30_encoding R69, R71). -/
theorem littleEndian_encode (i : Instr) : littleEndian (encode i) = i.opcode.code + 32 * i.operand := by
  have hc := i.opcode.code_lt
  have hv := i.operand_lt
  have hw : 2 ^ i.opcode.width * 32 ≤ 2 ^ (8 * i.opcode.len) := by
    rw [show 32 = 2 ^ 5 from rfl, ← Nat.pow_add]
    exact Nat.pow_le_pow_right (by decide) i.opcode.width_add_five_le
  rw [encode, encodeFields, littleEndian_bytesOf, Nat.or_comm, ← Nat.shiftLeft_add_eq_or_of_lt hc, Nat.shiftLeft_eq,
    Nat.mod_eq_of_lt (by omega)]
  omega

theorem encode_length (i : Instr) : (encode i).length = i.len :=
  bytesOf_length _ _

/-- An image that holds an instruction's canonical bytes decodes there to the instruction (30_encoding R72). -/
theorem decode_encode {i : Instr} {image : List Byte} {p : Nat} (h : holdsAt image p (encode i)) :
    decode image p = .ok (i, i.len) :=
  decode_of_word (k := 0) (encode_length i) (by simp [littleEndian_encode]) h

/-- Settles O3: a well-formed pair is an instruction, on which the encoder succeeds, and its bytes decode back. -/
theorem decodeEncodeRoundTrip : Obligations.DecodeEncodeRoundTrip :=
  ⟨fun _ => RawInstr.exists_instr_of_wellFormed, fun i => ⟨encodeRaw_raw i, fun _ _ => decode_encode⟩⟩

end Sys2Proof
end

section
/-! Padding bits (30_encoding R66): they change neither what is decoded nor, but for the image itself, the step. -/

namespace Sys2Proof.Machine

/-- The number of two fields side by side. -/
theorem toNat_append_eq_add {m n : Nat} (x : BitVec m) (y : BitVec n) :
    (x ++ y).toNat = x.toNat * 2 ^ n + y.toNat := by
  rw [BitVec.toNat_append, ← Nat.shiftLeft_add_eq_or_of_lt y.isLt, Nat.shiftLeft_eq]

/-- The word of format F3: opcode, address and padding from the low bits up (30_encoding R57). -/
theorem littleEndian_f3Bytes (opcode : OpcodeBits) (addr : Addr) (padding : BitVec 2) :
    littleEndian (f3Bytes opcode addr padding) = opcode.toNat + 32 * (addr.toNat + 2 ^ 17 * padding.toNat) := by
  have ha := addr.isLt
  simp only [f3Bytes, littleEndian_cons, littleEndian, toNat_append_eq_add, BitVec.extractLsb'_toNat,
    Nat.shiftRight_eq_div_pow]
  omega

/-- The word of format F5: opcode, constant and padding from the low bits up (30_encoding R58). -/
theorem littleEndian_f5Bytes (opcode : OpcodeBits) (imm : Const) (padding : BitVec 6) :
    littleEndian (f5Bytes opcode imm padding) = opcode.toNat + 32 * (imm.toNat + 2 ^ 29 * padding.toNat) := by
  have hi := imm.isLt
  simp only [f5Bytes, littleEndian_cons, littleEndian, toNat_append_eq_add, BitVec.extractLsb'_toNat,
    Nat.shiftRight_eq_div_pow]
  omega

/-- The word of an instruction's bytes with chosen padding bits (30_encoding R56 to R58). -/
theorem littleEndian_bytesWithPadding (i : Instr) (padding : BitVec 6) :
    ∃ k, littleEndian (bytesWithPadding i padding) =
      i.opcode.code + 32 * (i.operand + 2 ^ i.opcode.width * k) := by
  cases i with
  | loadConst imm => exact ⟨_, littleEndian_f5Bytes 14 imm padding⟩
  | memoryWrite addr => exact ⟨_, littleEndian_f3Bytes 15 addr _⟩
  | minOp addr => exact ⟨_, littleEndian_f3Bytes 20 addr _⟩
  | memoryRead addr => exact ⟨_, littleEndian_f3Bytes 25 addr _⟩

theorem bytesWithPadding_length (i : Instr) (padding : BitVec 6) : (bytesWithPadding i padding).length = i.len := by
  cases i <;> rfl

/-- With any padding bits, an instruction's bytes decode to it (30_encoding R66). -/
theorem decode_bytesWithPadding {i : Instr} {padding : BitVec 6} {image : List Byte} {p : Nat}
    (h : holdsAt image p (bytesWithPadding i padding)) : decode image p = .ok (i, i.len) := by
  obtain ⟨k, hk⟩ := littleEndian_bytesWithPadding i padding
  exact decode_of_word (bytesWithPadding_length i padding) hk h

/-- A checked access that does not look at the image does the same with another image. -/
theorem withCell_withImage (addr : Addr) (len : Nat) (access : Nat → State → State) {s : State} {image : List Byte}
    (hacc : ∀ a, access a (s.withImage image) = (access a s).withImage image) :
    ∃ t, withCell addr len access s = .next t ∧
      withCell addr len access (s.withImage image) = .next (t.withImage image) := by
  rcases withCell_cases addr len access s with ⟨h, e⟩ | ⟨h, e⟩
  · exact ⟨_, e, by rw [withCell_of_lt (by simpa using h), hacc]; rfl⟩
  · exact ⟨_, e, withCell_of_le (by simpa using h) len access⟩

/-- No instruction looks at the image: with another one it does the same. -/
theorem exec_withImage (i : Instr) (s : State) (image : List Byte) :
    ∃ t, exec i s = .next t ∧ exec i (s.withImage image) = .next (t.withImage image) := by
  cases i with
  | loadConst imm => exact ⟨_, rfl, rfl⟩
  | memoryWrite addr =>
    exact withCell_withImage addr Opcode.memoryWrite.len (fun a t => t.writeCell a t.acc) fun _ => rfl
  | minOp addr =>
    exact withCell_withImage addr Opcode.minOp.len (fun a t => t.setAcc (unsignedMin (t.readCell a) t.acc))
      fun _ => rfl
  | memoryRead addr =>
    exact withCell_withImage addr Opcode.memoryRead.len (fun a t => t.setAcc (t.readCell a)) fun _ => rfl

/-- A running engine executes the instruction it decodes at `pc` (10_state R29). -/
theorem runStep_of_decode_ok {s : State} {i : Instr} {n : Nat} (h : decode s.cfg.image s.pc = .ok (i, n)) :
    runStep s = exec i s := by
  simp [runStep, h]

/-- Settles O2: both images decode to the one instruction, which does not look at the image. -/
theorem decodeIgnoresPadding : Obligations.DecodeIgnoresPadding := by
  refine ⟨fun _ _ _ _ => decode_bytesWithPadding, fun s i padding padding' image' hs h h' => ?_⟩
  have hs' : (s.withImage image').engineNext := hs
  have hdec' : decode (s.withImage image').cfg.image (s.withImage image').pc = .ok (i, i.len) :=
    decode_bytesWithPadding h'
  rw [step_of_engineNext hs, step_of_engineNext hs', runStep_of_decode_ok (decode_bytesWithPadding h),
    runStep_of_decode_ok hdec']
  exact exec_withImage i s image'

end Sys2Proof.Machine
end

section
/-! Truncated instructions (30_encoding R64). -/

namespace Sys2Proof.Machine

/-- A truncated instruction makes the running engine raise CorruptImage (60_exceptions R90). -/
theorem runStep_of_truncated {s : State} {p : Nat}
    (h : decode s.cfg.image s.pc = .error (.truncatedInstruction p)) :
    runStep s = .next (s.raiseFault .corruptImage) := by
  simp [runStep, h]

/-- Settles O6: after an assigned opcode the length check alone decides between the two answers. -/
theorem truncationIsCorruptImage : Obligations.TruncationIsCorruptImage := by
  intro s b op hs hb hop
  have hdec := decode_of_opcode hb hop
  constructor
  · intro hshort
    rw [if_pos hshort] at hdec
    exact ⟨hdec, (step_of_engineNext hs).trans (runStep_of_truncated hdec)⟩
  · intro hfits
    rw [if_neg (Nat.not_lt.mpr hfits)] at hdec
    exact ⟨_, Opcode.withOperand_opcode op _, hdec⟩

end Sys2Proof.Machine
end

section
/-! LOAD_CONST and MEMORY_READ from the image's bytes (40_data_movement R85, R86), and what instructions do to the
data memory (20_memory R50). -/

namespace Sys2Proof.Machine

/-- A step of the running engine is the instruction decoded at `pc` (10_state R29). -/
theorem step_of_decode_ok {s : State} {i : Instr} {n : Nat} (hs : s.engineNext)
    (h : decode s.cfg.image s.pc = .ok (i, n)) : step s = exec i s :=
  (step_of_engineNext hs).trans (runStep_of_decode_ok h)

theorem exec_loadConst (imm : Const) (s : State) :
    exec (.loadConst imm) s = .next ((s.setAcc imm).advance 5) := by
  rw [exec, execLoadConst, constantValue_eq]
  rfl

/-- MEMORY_READ on both sides of the bound `N` (40_data_movement R86). -/
theorem exec_memoryRead (addr : Addr) (s : State) :
    exec (.memoryRead addr) s = .next (if addr.toNat < s.cfg.memCells then
      (s.setAcc (s.readCell addr.toNat)).advance 3 else s.raiseFault (.invalidAddress addr)) := by
  rw [exec, execMemoryRead]
  split
  · next h => exact withCell_of_lt h _ _
  · next h => exact withCell_of_le (Nat.not_lt.mp h) _ _

/-- Settles O17: the five bytes decode to the instruction with any padding, fewer are a truncated instruction, and
2^29 does not fit 29 bits. -/
theorem loadConstFromImage : Obligations.LoadConstFromImage := by
  refine ⟨fun s imm padding hs h => ?_, fun s b hs hb hop hshort => ?_, by decide⟩
  · have hdec := decode_of_word (i := .loadConst imm) rfl (littleEndian_f5Bytes 14 imm padding) h
    exact (step_of_decode_ok hs hdec).trans (exec_loadConst imm s)
  · obtain ⟨hcorrupt, _⟩ := truncationIsCorruptImage s b .loadConst hs hb hop
    exact (hcorrupt hshort).2

/-- The memory after an instruction: as before, or with the accumulator written to the cell of a MEMORY_WRITE
(20_memory R50). -/
theorem exec_mem {i : Instr} {s t : State} (h : exec i s = .next t) :
    t.mem = s.mem ∨ ∃ addr, i = .memoryWrite addr ∧ t.mem = writeMem s.mem addr.toNat s.acc := by
  rcases exec_cases i s with ⟨u, e, hu⟩ | ⟨_, _, _, e⟩ <;> rw [e] at h <;> cases h
  · rcases hu with ⟨_, _, rfl⟩ | ⟨addr, hi, _, rfl⟩ | ⟨_, _, _, rfl⟩ | ⟨_, _, _, rfl⟩
    · exact .inl rfl
    · exact .inr ⟨addr, hi, rfl⟩
    · exact .inl rfl
    · exact .inl rfl
  · exact .inl rfl

/-- Every instruction keeps the memory's canonical form. -/
theorem exec_wf {i : Instr} {s t : State} (hwf : Memory.wf s.mem = true) (h : exec i s = .next t) :
    Memory.wf t.mem = true := by
  rcases exec_mem h with hm | ⟨addr, _, hm⟩ <;> rw [hm]
  · exact hwf
  · exact writeMem_wf hwf _ _

/-- An instruction that is no MEMORY_WRITE of the cell keeps it. -/
theorem exec_readCell_of_ne {i : Instr} {s t : State} {addr : Addr} (hwf : Memory.wf s.mem = true)
    (h : exec i s = .next t) (hi : i ≠ .memoryWrite addr) : t.readCell addr.toNat = s.readCell addr.toNat := by
  rcases exec_mem h with hm | ⟨written, rfl, hm⟩ <;> rw [State.readCell, State.readCell, hm]
  have hne : addr.toNat ≠ written.toNat := fun he => hi (congrArg _ (BitVec.eq_of_toNat_eq he.symm))
  rw [readMem_writeMem hwf, if_neg hne]

/-- A run goes on after its first instruction exactly where that leaves the engine RUNNING. -/
theorem execAll_cons_eq_some {i : Instr} {is : List Instr} {s t : State} :
    execAll (i :: is) s = some t ↔ ∃ u, exec i s = .next u ∧ u.status = .running ∧ execAll is u = some t := by
  rw [execAll]
  cases exec i s <;> simp

/-- A run without a MEMORY_WRITE of the cell keeps it (20_memory R50). -/
theorem execAll_readCell_of_notMem {is : List Instr} {s t : State} {addr : Addr} (hwf : Memory.wf s.mem = true)
    (h : execAll is s = some t) (hmem : .memoryWrite addr ∉ is) :
    t.readCell addr.toNat = s.readCell addr.toNat := by
  induction is generalizing s with
  | nil => cases h; rfl
  | cons i is ih =>
    obtain ⟨u, hexec, _, hrest⟩ := execAll_cons_eq_some.mp h
    rw [List.mem_cons, not_or] at hmem
    obtain ⟨hi, his⟩ := hmem
    calc t.readCell addr.toNat
      _ = u.readCell addr.toNat := ih (exec_wf hwf hexec) hrest his
      _ = s.readCell addr.toNat := exec_readCell_of_ne hwf hexec (Ne.symm hi)

/-- Settles O18: the three bytes decode to the instruction with any padding, and along a run only a MEMORY_WRITE of the
cell changes it. -/
theorem memoryReadFromImage : Obligations.MemoryReadFromImage := by
  refine ⟨fun s addr padding hs h => ?_, fun _ _ _ _ => execAll_readCell_of_notMem⟩
  have hdec := decode_of_word (i := .memoryRead addr) rfl (littleEndian_f3Bytes 25 addr padding) h
  exact (step_of_decode_ok hs hdec).trans (exec_memoryRead addr s)

end Sys2Proof.Machine
end

section
/-! InvalidAddress (60_exceptions R93): the instructions and addresses that raise it. -/

namespace Sys2Proof.Machine

/-- A memory instruction on an address that is no cell raises InvalidAddress (60_exceptions R93). -/
theorem exec_of_memCells_le {i : Instr} {addr : Addr} {s : State}
    (hi : i ∈ [.memoryRead addr, .memoryWrite addr, .minOp addr]) (h : s.cfg.memCells ≤ addr.toNat) :
    exec i s = .next (s.raiseFault (.invalidAddress addr)) := by
  simp only [List.mem_cons, List.not_mem_nil, or_false] at hi
  rcases hi with rfl | rfl | rfl
  · rw [exec, execMemoryRead, withCell_of_le h]
  · rw [exec, execMemoryWrite, withCell_of_le h]
  · rw [exec, execMinOp, withCell_of_le h]

/-- The fault record after an instruction: as before, or the InvalidAddress of a memory instruction on an address that
is no cell (60_exceptions R89, R93). -/
theorem exec_fault {i : Instr} {s t : State} (h : exec i s = .next t) :
    t.fault = s.fault ∨ ∃ addr : Addr, i ∈ [.memoryRead addr, .memoryWrite addr, .minOp addr] ∧
      s.cfg.memCells ≤ addr.toNat ∧ t.fault = some { kind := .invalidAddress addr, faultPc := s.pc } := by
  rcases exec_cases i s with ⟨u, e, hu⟩ | ⟨addr, hi, hle, e⟩ <;> rw [e] at h <;> cases h
  · left
    rcases hu with ⟨_, _, rfl⟩ | ⟨_, _, _, rfl⟩ | ⟨_, _, _, rfl⟩ | ⟨_, _, _, rfl⟩ <;> rfl
  · refine .inr ⟨addr, ?_, hle, rfl⟩
    rcases hi with rfl | rfl | rfl <;> simp

/-- Settles O21: each memory instruction raises InvalidAddress at or above `N`, and no instruction changes the fault
record otherwise. -/
theorem invalidAddressExactlyOutOfBounds : Obligations.InvalidAddressExactlyOutOfBounds :=
  ⟨fun _ _ _ => exec_of_memCells_le, fun _ _ _ h hne => (exec_fault h).resolve_left hne⟩

end Sys2Proof.Machine
end

section
/-! The dump after a normal halt (70_reset_and_hazards R112): the cells of a legal range, in order. -/

namespace Sys2Proof.Machine

@[simp] theorem readCells_length (m : Memory) (n a : Nat) : (readCells m n a).length = n := by
  induction n generalizing a with
  | zero => rfl
  | succ n ih => rw [readCells, List.length_cons, ih]

/-- The `k`-th of the cells read from `a` on is cell `a + k`. -/
theorem readCells_getElem? (m : Memory) {n k : Nat} (a : Nat) (h : k < n) :
    (readCells m n a)[k]? = some (readMem m (a + k)) := by
  induction n generalizing a k with
  | zero => exact absurd h (Nat.not_lt_zero k)
  | succ n ih =>
    cases k with
    | zero => rfl
    | succ k =>
      rw [readCells, List.getElem?_cons_succ, ih (a + 1) (Nat.lt_of_succ_lt_succ h), Nat.add_right_comm a 1 k,
        Nat.add_assoc]

/-- The legal dump ranges are those with `start ≤ end < N` (70_reset_and_hazards R112, R113). -/
theorem RunConfig.dumpBadAddress_eq_none {c : RunConfig} :
    c.dumpBadAddress = none ↔ c.dumpStart ≤ c.dumpEnd ∧ c.dumpEnd < c.memCells := by
  unfold RunConfig.dumpBadAddress
  split_ifs <;> simp <;> omega

/-- A normal halt with a legal range gives the result (70_reset_and_hazards R111). -/
theorem State.outcome_of_dumpBadAddress_eq_none {s : State} (hst : s.status = .halted)
    (hlegal : s.cfg.dumpBadAddress = none) : s.outcome = some (.halted s.acc s.dump) := by
  simp [State.outcome, hst, hlegal]

/-- Settles O42: the range is legal, so the outcome is the result with the dump, which reads the cells of the range one
after the other. -/
theorem dumpListsTheRange : Obligations.DumpListsTheRange := by
  intro s hst hle hlt
  have hlegal : s.cfg.dumpBadAddress = none := RunConfig.dumpBadAddress_eq_none.mpr ⟨hle, hlt⟩
  refine ⟨s.dump, State.outcome_of_dumpBadAddress_eq_none hst hlegal, rfl, rfl, ?_, fun k hk => ?_⟩
  · rw [State.dump, readCells_length, Nat.sub_add_comm hle]
  · exact readCells_getElem? s.mem _ (by omega)

end Sys2Proof.Machine
end

section
/-! Program images (30_encoding R74, R76): the encodings one after the other decode back one after the other. -/

namespace Sys2Proof

open Sys2Proof.Machine

@[simp] theorem encodeProgram_nil : encodeProgram [] = [] := rfl

@[simp] theorem encodeProgram_cons (i : Instr) (is : List Instr) :
    encodeProgram (i :: is) = encode i ++ encodeProgram is := rfl

theorem encodeProgram_length (is : List Instr) : (encodeProgram is).length = (is.map Instr.len).sum := by
  simp [encodeProgram, List.length_flatMap, encode_length]

/-- Bytes stand in a list behind what comes before them. -/
theorem holdsAt_append (before bytes after : List Byte) :
    holdsAt (before ++ (bytes ++ after)) before.length bytes := by
  simp [holdsAt]

/-- A program decodes as the instruction at the offset and the program behind it (30_encoding R76). -/
theorem decodeProgram_succ {image : List Byte} {pc n fuel : Nat} {i : Instr} {is : List Instr}
    (hdec : decode image pc = .ok (i, n)) (hrest : decodeProgram image fuel (pc + n) = .ok is) :
    decodeProgram image (fuel + 1) pc = .ok (i :: is) := by
  simp [decodeProgram, hdec, hrest]

/-- Behind any bytes, a program's image decodes into the program and ends with it (30_encoding R76). -/
theorem decodeProgram_encodeProgram (before : List Byte) (is : List Instr) :
    decodeProgram (before ++ encodeProgram is) (is.length + 1) before.length = .ok is := by
  induction is generalizing before with
  | nil => simp [decodeProgram, decode_endOfImage.mpr]
  | cons i is ih =>
    have hdec : decode (before ++ encodeProgram (i :: is)) before.length = .ok (i, i.len) :=
      decode_encode (holdsAt_append before (encode i) (encodeProgram is))
    have hrest := ih (before ++ encode i)
    rw [List.length_append, encode_length, List.append_assoc, ← encodeProgram_cons] at hrest
    exact decodeProgram_succ hdec hrest

/-- Settles O9: nothing stands before the program's image, which ends at the end of the image. -/
theorem programImageDecodesBack : Obligations.ProgramImageDecodesBack :=
  fun is => ⟨decodeProgram_encodeProgram [] is, encodeProgram_length is⟩

end Sys2Proof
end

section
/-! What an instruction, the engine's step and the machine's step can answer, said once as equations for the next state,
for the invariants and frames that follow. -/

namespace Sys2Proof.Machine

/-- Everything an instruction can answer: the accumulator set or the cell of a MEMORY_WRITE set, with the advance, or
InvalidAddress (10_state R29, 60_exceptions R93). -/
theorem exec_next_cases {i : Instr} {s t : State} (h : exec i s = .next t) :
    (∃ v, i.opcode ≠ .memoryWrite ∧ t = (s.setAcc v).advance i.len) ∨
    (∃ addr : Addr, i = .memoryWrite addr ∧ addr.toNat < s.cfg.memCells ∧
      t = (s.writeCell addr.toNat s.acc).advance i.len) ∨
    (∃ addr : Addr, (i = .memoryRead addr ∨ i = .memoryWrite addr ∨ i = .minOp addr) ∧
      s.cfg.memCells ≤ addr.toNat ∧ t = s.raiseFault (.invalidAddress addr)) := by
  rcases exec_cases i s with ⟨u, e, hu⟩ | ⟨addr, hi, hle, e⟩ <;> rw [e] at h <;> cases h
  · rcases hu with ⟨_, rfl, rfl⟩ | ⟨addr, rfl, hlt, rfl⟩ | ⟨_, rfl, _, rfl⟩ | ⟨_, rfl, _, rfl⟩
    · exact .inl ⟨_, by simp [Instr.opcode], rfl⟩
    · exact .inr (.inl ⟨addr, rfl, hlt, rfl⟩)
    · exact .inl ⟨_, by simp [Instr.opcode], rfl⟩
    · exact .inl ⟨_, by simp [Instr.opcode], rfl⟩
  · exact .inr (.inr ⟨addr, by tauto, hle, rfl⟩)

/-- A truncated instruction is reported at the offset it was decoded at (30_encoding R64). -/
theorem decode_truncated_position {image : List Byte} {pc p : Nat}
    (h : decode image pc = .error (.truncatedInstruction p)) : p = pc := by
  rcases decode_cases image pc with ⟨_, e⟩ | ⟨b, _, _, e⟩ | ⟨b, op, _, _, ⟨_, e⟩ | ⟨_, e⟩⟩ <;> rw [e] at h <;> cases h
  rfl

/-- Everything a step of the running engine can answer: the halt, a fault with its cause, or an executed instruction
that lies in the image (10_state R29, 60_exceptions R90). -/
theorem runStep_next_cases {s t : State} (h : runStep s = .next t) :
    (s.cfg.image.length ≤ s.pc ∧ t = s.halt) ∨
    (∃ k : FaultKind, FaultRecord.explained s.cfg { kind := k, faultPc := s.pc } ∧ t = s.raiseFault k) ∨
    (∃ (i : Instr) (u : State), s.pc + i.len ≤ s.cfg.image.length ∧ t = u.advance i.len ∧
      ((∃ v, u = s.setAcc v) ∨ ∃ a, a < s.cfg.memCells ∧ u = s.writeCell a s.acc)) := by
  rcases runStep_cases s with ⟨hend, e⟩ | ⟨o, hdec, e⟩ | ⟨p, hdec, e⟩ | ⟨i, n, hdec, e⟩ <;> rw [e] at h
  · cases h; exact .inl ⟨hend, rfl⟩
  · cases h; exact .inr (.inl ⟨.invalidOpcode o, hdec, rfl⟩)
  · cases h
    obtain rfl : p = s.pc := decode_truncated_position hdec
    exact .inr (.inl ⟨.corruptImage, hdec, rfl⟩)
  · obtain ⟨rfl, hfits⟩ := decode_ok hdec
    rcases exec_next_cases h with ⟨v, _, rfl⟩ | ⟨addr, _, hlt, rfl⟩ | ⟨addr, hi, hle, rfl⟩
    · exact .inr (.inr ⟨i, _, hfits, rfl, .inl ⟨v, rfl⟩⟩)
    · exact .inr (.inr ⟨i, _, hfits, rfl, .inr ⟨_, hlt, rfl⟩⟩)
    · have hcause : FaultRecord.explained s.cfg { kind := .invalidAddress addr, faultPc := s.pc } :=
        ⟨hle, by rcases hi with rfl | rfl | rfl; exacts [.inl hdec, .inr (.inl hdec), .inr (.inr hdec)]⟩
      exact .inr (.inl ⟨_, hcause, rfl⟩)

end Sys2Proof.Machine
end

section
/-! What every step of the machine keeps (10_state R31, 60_exceptions R94): the canonical form of the memory, the
machine's invariant, and that a fault has its cause. One lemma for each state operation, then one for the step. -/

namespace Sys2Proof.Machine

theorem hostStart_of_idle {s : State} (h : s.status = .idle) : hostStart s = { s with status := .running } := by
  simp [hostStart, h]

theorem hostStart_of_not_idle {s : State} (h : s.status ≠ .idle) : hostStart s = s := by
  unfold hostStart
  split
  · contradiction
  · rfl
  · rfl
  · rfl

/-- What the schedule does not touch and the engine and each move of the host keep, every step keeps. -/
theorem step_preserves {P : State → Prop} (hinputs : ∀ s inputs, P s → P { s with inputs := inputs })
    (hrun : ∀ s t, P s → s.status = .running → runStep s = .next t → P t)
    (hload : ∀ s c, P s → s.status ≠ .running → c.Legal s.imageMax → P { s with ports := c })
    (hreset : ∀ s d, P s → P (hostReset d s)) (hstart : ∀ s, P s → P (hostStart s))
    {s t : State} (hs : P s) (h : step s = .next t) : P t := by
  have hengine : ∀ s, P s → engineStep s = .next t → P t := by
    intro s hs h
    by_cases hst : s.status = .running
    · exact hrun s t hs hst (engineStep_running hst ▸ h)
    · rw [engineStep_of_not_running hst] at h
      cases h
      exact hs
  rcases step_cases h with ⟨_, h⟩ | ⟨rest, _, h⟩ | ⟨c, rest, _, hst, hc, rfl⟩ | ⟨d, rest, _, rfl⟩ | ⟨rest, _, rfl⟩
  · exact hengine s hs h
  · exact hengine _ (hinputs s rest hs) h
  · exact hload _ c (hinputs s rest hs) hst hc
  · exact hreset _ d (hinputs s rest hs)
  · exact hstart _ (hinputs s rest hs)

theorem runStep_wf {s t : State} (hwf : Memory.wf s.mem = true) (h : runStep s = .next t) :
    Memory.wf t.mem = true := by
  rcases runStep_next_cases h with ⟨_, rfl⟩ | ⟨k, _, rfl⟩ | ⟨i, u, _, rfl, ⟨v, rfl⟩ | ⟨a, _, rfl⟩⟩
  · exact hwf
  · exact hwf
  · exact hwf
  · exact writeMem_wf hwf a s.acc

/-- Settles O32: the engine writes the memory through `writeMem` alone, and a reset draws a canonical one. -/
theorem memoryStaysCanonical : Obligations.MemoryStaysCanonical := fun _ _ =>
  step_preserves (P := fun s => Memory.wf s.mem = true) (fun _ _ hs => hs) (fun _ _ hs _ => runStep_wf hs)
    (fun _ _ hs _ _ => hs) (fun _ _ _ => drawnMem_wf _ _) (fun s hs => by rwa [hostStart_mem])

/-! ### The invariant -/

/-- There is no fault record in a status other than FAULTED (10_state R23). -/
theorem State.Inv.fault_eq_none {s : State} (hs : s.Inv) (hst : s.status ≠ .faulted) : s.fault = none := by
  have hiff := hs.faultWhileFaulted
  cases hf : s.fault with
  | none => rfl
  | some r => exact absurd (hiff.mp (by rw [hf]; rfl)) hst

theorem State.Inv.setAcc {s : State} (hs : s.Inv) (v : Word) : (s.setAcc v).Inv := { hs with }

theorem State.Inv.writeCell {s : State} (hs : s.Inv) {a : Nat} (ha : a < s.cfg.memCells) (v : Word) :
    (s.writeCell a v).Inv :=
  { hs with
    memCanonical := writeMem_wf hs.memCanonical a v
    memInBounds := fun e he => (mem_writeMem he).elim (fun h => h ▸ ha) (hs.memInBounds e) }

/-- The advance keeps the invariant of a running machine if the instruction lies in the image (10_state R31). -/
theorem State.Inv.advance {s : State} (hs : s.Inv) (hrun : s.status = .running) {n : Nat}
    (hfits : s.pc + n ≤ s.cfg.image.length) : (s.advance n).Inv :=
  { hs with
    pcInImage := hfits
    faultAtPc := by simp [hs.fault_eq_none, hrun]
    haltedAtEnd := by simp [hrun]
    idleAtStart := by simp [hrun] }

theorem State.Inv.halt {s : State} (hs : s.Inv) (hrun : s.status = .running) (hend : s.cfg.image.length ≤ s.pc) :
    s.halt.Inv :=
  { hs with
    faultWhileFaulted := by simp [hs.fault_eq_none, hrun]
    haltedAtEnd := fun _ => Nat.le_antisymm hs.pcInImage hend
    idleAtStart := by simp }

theorem State.Inv.raiseFault {s : State} (hs : s.Inv) (k : FaultKind) : (s.raiseFault k).Inv :=
  { hs with
    faultWhileFaulted := by simp
    faultAtPc := by simp
    haltedAtEnd := by simp
    idleAtStart := by simp }

theorem State.Inv.runStep {s t : State} (hs : s.Inv) (hrun : s.status = .running) (h : runStep s = .next t) :
    t.Inv := by
  rcases runStep_next_cases h with ⟨hend, rfl⟩ | ⟨k, _, rfl⟩ | ⟨i, u, hfits, rfl, ⟨v, rfl⟩ | ⟨a, ha, rfl⟩⟩
  · exact hs.halt hrun hend
  · exact hs.raiseFault k
  · exact (hs.setAcc v).advance hrun hfits
  · exact (hs.writeCell ha s.acc).advance hrun hfits

/-- A reset meets the invariant with the configuration at the ports (10_state R36, 70_reset_and_hazards R106). -/
theorem State.Inv.hostReset {s : State} (hs : s.Inv) (d : Draw) : (hostReset d s).Inv where
  memCanonical := drawnMem_wf _ _
  memInBounds := fun _ => drawnMem_lt
  pcInImage := Nat.zero_le _
  faultWhileFaulted := by simp
  faultAtPc := by simp
  haltedAtEnd := by simp
  idleAtStart := fun _ => rfl
  cfgLegal := hs.portsLegal
  portsLegal := hs.portsLegal

theorem State.Inv.hostStart {s : State} (hs : s.Inv) : (hostStart s).Inv := by
  by_cases hst : s.status = .idle
  · have hnone := hs.fault_eq_none (by simp [hst])
    rw [hostStart_of_idle hst]
    exact { hs with
      faultWhileFaulted := by simp [hnone]
      haltedAtEnd := by simp
      idleAtStart := by simp }
  · rwa [hostStart_of_not_idle hst]

/-- Settles O33: the operations of the engine and the moves of the host each keep the invariant. -/
theorem stepKeepsInvariant : Obligations.StepKeepsInvariant := fun _ _ =>
  step_preserves (fun _ _ hs => { hs with }) (fun _ _ => State.Inv.runStep)
    (fun _ _ hs _ hc => { hs with portsLegal := hc }) (fun _ d hs => hs.hostReset d) (fun _ => State.Inv.hostStart)

/-! ### Faults and their causes -/

theorem State.FaultExplained.of_fault_eq_none {s : State} (h : s.fault = none) : s.FaultExplained :=
  fun r hr => by simp [h] at hr

/-- The engine records a fault only with its cause at `pc` (60_exceptions R90). -/
theorem State.FaultExplained.runStep {s t : State} (hs : s.FaultExplained) (h : runStep s = .next t) :
    t.FaultExplained := by
  rcases runStep_next_cases h with ⟨_, rfl⟩ | ⟨k, hcause, rfl⟩ | ⟨i, u, _, rfl, ⟨v, rfl⟩ | ⟨a, _, rfl⟩⟩
  · exact hs
  · rintro r ⟨⟩
    exact hcause
  · exact hs
  · exact hs

/-- Settles O34: the engine records a cause with each fault, a load and a start keep record and configuration, and a
reset leaves no record. -/
theorem stepKeepsFaultExplained : Obligations.StepKeepsFaultExplained := fun _ _ =>
  step_preserves (fun _ _ hs => hs) (fun _ _ hs _ => hs.runStep) (fun _ _ hs _ _ => hs)
    (fun _ _ _ => .of_fault_eq_none rfl) (fun s hs => by rwa [State.FaultExplained, hostStart_fault, hostStart_cfg])

/-- The reset state meets the invariant with its legal reference configuration. -/
theorem State.reset_inv : State.reset.Inv :=
  have hlegal : RunConfig.reference.Legal Config.refImageMax := ⟨Nat.zero_le _, by decide⟩
  { memCanonical := State.reset_wf
    memInBounds := fun _ he => absurd he List.not_mem_nil
    pcInImage := Nat.zero_le _
    faultWhileFaulted := by decide
    faultAtPc := fun _ hr => by cases hr
    haltedAtEnd := fun h => by cases h
    idleAtStart := fun _ => rfl
    cfgLegal := hlegal
    portsLegal := hlegal }

/-- Settles O35: the reset state meets the invariant and has no fault record. -/
theorem resetStateMeetsInvariants : Obligations.ResetStateMeetsInvariants :=
  ⟨State.reset_inv, .of_fault_eq_none rfl, rfl, rfl, rfl⟩

end Sys2Proof.Machine
end

section
/-! The assembler's lines (30_encoding section 6): a successful assembly is a program with its log, and the lines are
assembled one after the other. -/

namespace Sys2Proof

/-- The encoder succeeds exactly on instructions, with their bytes (30_encoding R70, R72). -/
theorem encodeRaw_eq_ok {r : RawInstr} {bytes : List Byte} :
    encodeRaw r = .ok bytes ↔ ∃ i : Instr, i.raw = r ∧ encode i = bytes := by
  constructor
  · intro h
    obtain ⟨_, _, hok⟩ := encodeFailsExactlyOnBadPairs r
    obtain ⟨i, rfl⟩ := r.exists_instr_of_wellFormed (hok.mp ⟨bytes, h⟩)
    rw [encodeRaw_raw] at h
    cases h
    exact ⟨i, rfl, rfl⟩
  · rintro ⟨i, rfl, rfl⟩
    exact encodeRaw_raw i

end Sys2Proof

namespace Sys2Proof.Machine

/-- The assembly is that of a program: its image and, entry by entry, its log. -/
structure Assembly.IsOf (a : Assembly) (is : List Instr) : Prop where
  image : a.image = encodeProgram is
  instrs : a.log.map (·.instr) = is.map Instr.raw
  bytes : a.log.map (·.bytes) = is.map encode

/-- Two assemblies one after the other. -/
def Assembly.append (a b : Assembly) : Assembly :=
  { image := a.image ++ b.image, log := a.log ++ b.log }

theorem Assembly.IsOf.append {a b : Assembly} {is js : List Instr} (ha : a.IsOf is) (hb : b.IsOf js) :
    (a.append b).IsOf (is ++ js) where
  image := by simp [Assembly.append, ha.image, hb.image, encodeProgram]
  instrs := by simp [Assembly.append, ha.instrs, hb.instrs]
  bytes := by simp [Assembly.append, ha.bytes, hb.bytes]

/-- Everything a line can be assembled to: nothing, or one instruction under the line's number (30_encoding R78,
R83). -/
theorem assembleLine_eq_ok {commentChar : Char} {n : Nat} {line : List Char} {a : Assembly}
    (h : assembleLine commentChar n line = .ok a) :
    a = { image := [], log := [] } ∨
    ∃ i : Instr, a =
      { image := encode i, log := [{ line := n, instr := i.raw, bytes := encode i, hex := hexOf (encode i) }] } := by
  unfold assembleLine at h
  split at h
  · cases h; exact .inl rfl
  · cases h
  · split at h
    · cases h
    · next hr =>
      obtain ⟨i, rfl, rfl⟩ := encodeRaw_eq_ok.mp hr
      cases h; exact .inr ⟨i, rfl⟩

/-- The forward pass: a line, then the lines behind it under the next numbers (30_encoding R83). -/
theorem assembleLines_cons (commentChar : Char) (n : Nat) (line : List Char) (rest : List (List Char)) :
    assembleLines commentChar n (line :: rest) = (do
      let a ← assembleLine commentChar n line
      let b ← assembleLines commentChar (n + 1) rest
      pure (a.append b)) := by
  rw [assembleLines]
  cases assembleLine commentChar n line with
  | error e => rfl
  | ok a => cases assembleLines commentChar (n + 1) rest <;> rfl

theorem assembleLines_cons_eq_ok {commentChar : Char} {n : Nat} {line : List Char} {rest : List (List Char)}
    {c : Assembly} : assembleLines commentChar n (line :: rest) = .ok c ↔
      ∃ a b, assembleLine commentChar n line = .ok a ∧ assembleLines commentChar (n + 1) rest = .ok b ∧
        a.append b = c := by
  rw [assembleLines_cons]
  cases assembleLine commentChar n line with
  | error e => simp [bind, Except.bind]
  | ok a => cases assembleLines commentChar (n + 1) rest <;> simp [bind, Except.bind, pure, Except.pure]

/-- What assembles is a program with its log (30_encoding R74, R83). -/
theorem assembleLines_isOf {commentChar : Char} {n : Nat} {lines : List (List Char)} {c : Assembly}
    (h : assembleLines commentChar n lines = .ok c) : ∃ is, c.IsOf is := by
  induction lines generalizing n c with
  | nil => cases h; exact ⟨[], rfl, rfl, rfl⟩
  | cons line rest ih =>
    obtain ⟨a, b, ha, hb, rfl⟩ := assembleLines_cons_eq_ok.mp h
    obtain ⟨js, hjs⟩ := ih hb
    rcases assembleLine_eq_ok ha with rfl | ⟨i, rfl⟩
    · exact ⟨_, Assembly.IsOf.append (is := []) ⟨rfl, rfl, rfl⟩ hjs⟩
    · exact ⟨_, Assembly.IsOf.append (is := [i]) ⟨by simp, rfl, rfl⟩ hjs⟩

/-- The log's lines rise from the number of the first line on (30_encoding R83, the spec's decision D20). -/
theorem assembleLines_lines {commentChar : Char} {n : Nat} {lines : List (List Char)} {c : Assembly}
    (h : assembleLines commentChar n lines = .ok c) :
    (∀ l ∈ c.log.map (·.line), n ≤ l) ∧ (c.log.map (·.line)).Pairwise (· < ·) := by
  induction lines generalizing n c with
  | nil => cases h; simp
  | cons line rest ih =>
    obtain ⟨a, b, ha, hb, rfl⟩ := assembleLines_cons_eq_ok.mp h
    obtain ⟨hle, hrise⟩ := ih hb
    rcases assembleLine_eq_ok ha with rfl | ⟨i, rfl⟩
    · exact ⟨fun l hl => Nat.le_of_succ_le (hle l hl), hrise⟩
    · refine ⟨fun l hl => ?_, List.pairwise_cons.mpr ⟨hle, hrise⟩⟩
      rcases List.mem_cons.mp hl with rfl | hl
      · exact Nat.le_refl _
      · exact Nat.le_of_succ_le (hle l hl)

/-- Settles O46: the program behind the log has the image, so the image decodes back to it. -/
theorem assembledImageDecodesToLog : Obligations.AssembledImageDecodesToLog := by
  intro commentChar source a h
  obtain ⟨is, his⟩ := assembleLines_isOf h
  obtain ⟨_, hrise⟩ := assembleLines_lines h
  exact ⟨is, his.image, his.instrs, his.bytes, his.image ▸ decodeProgram_encodeProgram [] is, hrise⟩

/-- Every text has a line (30_encoding R77). -/
theorem splitLines_ne_nil (source : List Char) : splitLines source ≠ [] := by
  cases source with
  | nil => simp [splitLines]
  | cons c rest =>
    rw [splitLines]
    split
    · simp
    · split <;> simp

/-- A text that an LF joins to another has the lines of both (30_encoding R77). -/
theorem splitLines_append (source more : List Char) :
    splitLines (source ++ '\n' :: more) = splitLines source ++ splitLines more := by
  induction source with
  | nil => rfl
  | cons c rest ih =>
    rw [List.cons_append, splitLines, splitLines, ih]
    split
    · rfl
    · cases h : splitLines rest with
      | nil => exact absurd h (splitLines_ne_nil rest)
      | cons l ls => rfl

/-- Lines behind others are assembled under their own numbers, after them (30_encoding R83). -/
theorem assembleLines_append (commentChar : Char) (n : Nat) (lines more : List (List Char)) :
    assembleLines commentChar n (lines ++ more) = (do
      let a ← assembleLines commentChar n lines
      let b ← assembleLines commentChar (n + lines.length) more
      pure (a.append b)) := by
  induction lines generalizing n with
  | nil =>
    cases h : assembleLines commentChar n more <;> simp [assembleLines, h, Assembly.append] <;> rfl
  | cons line rest ih =>
    rw [List.cons_append, assembleLines_cons, assembleLines_cons, ih, List.length_cons, Nat.add_right_comm,
      Nat.add_assoc]
    simp [Assembly.append]

/-- Settles O47: the lines of the joined text are those of both parts, and the pass over them is the two passes, one
after the other. -/
theorem assemblyIsOneForwardPass : Obligations.AssemblyIsOneForwardPass := by
  intro commentChar source more
  have hpass : assemble commentChar (source ++ '\n' :: more) = (do
      let a ← assemble commentChar source
      let b ← assembleLines commentChar (1 + (splitLines source).length) (splitLines more)
      pure (a.append b)) := by
    rw [assemble, splitLines_append, assembleLines_append]
    rfl
  refine ⟨fun e h => ?_, fun a b h h' => ?_, fun a e h h' => ?_⟩
  · rw [hpass, h]; rfl
  · rw [hpass, h, h']; rfl
  · rw [hpass, h, h']; rfl

end Sys2Proof.Machine
end

section
/-! Reading one line (30_encoding R78 to R81): comments, the maximal runs of characters that are no whitespace, and
decimal numerals. -/

namespace Sys2Proof.Machine

/-! ### Tokens -/

/-- Whitespace in front gives no token (30_encoding R79). -/
theorem tokens_append_of_whitespace {ws : List Char} (hws : ∀ c ∈ ws, isWhitespace c = true) (rest : List Char) :
    tokens (ws ++ rest) = tokens rest := by
  induction ws with
  | nil => rfl
  | cons c ws ih =>
    obtain ⟨hc, hws⟩ := List.forall_mem_cons.mp hws
    rw [List.cons_append, tokens.eq_def]
    simp [hc, ih hws]

theorem tokens_of_whitespace {ws : List Char} (hws : ∀ c ∈ ws, isWhitespace c = true) : tokens ws = [] := by
  simpa [tokens] using tokens_append_of_whitespace hws []

/-- A run of characters that are no whitespace, up to whitespace or the end, is one token (30_encoding R79). -/
theorem tokens_append_of_word {w rest : List Char} (hne : w ≠ []) (hw : ∀ c ∈ w, isWhitespace c = false)
    (hrest : ∀ c ∈ rest.head?, isWhitespace c = true) : tokens (w ++ rest) = w :: tokens rest := by
  induction w with
  | nil => contradiction
  | cons c w ih =>
    obtain ⟨hc, hw⟩ := List.forall_mem_cons.mp hw
    cases w with
    | nil =>
      cases rest with
      | nil => simp [tokens, hc]
      | cons d rest =>
        have hd : isWhitespace d = true := hrest d rfl
        simp [tokens, hc, hd]
    | cons d w =>
      have hd : isWhitespace d = false := (List.forall_mem_cons.mp hw).1
      have htail := ih (List.cons_ne_nil d w) hw
      rw [List.cons_append] at htail
      rw [List.cons_append, List.cons_append, tokens, htail]
      simp [hc, hd]

/-- What starts with whitespace ends the word before it. -/
theorem head?_append_whitespace {ws : List Char} (hws : ∀ c ∈ ws, isWhitespace c = true) (hne : ws ≠ [])
    (rest : List Char) : ∀ c ∈ (ws ++ rest).head?, isWhitespace c = true := by
  intro c hc
  rw [List.head?_append_of_ne_nil _ hne] at hc
  exact hws c (List.mem_of_mem_head? hc)

/-- Settles O49: the whitespace gives no token, and each of the two words ends at whitespace or at the end. -/
theorem lineSplitsIntoTwoTokens : Obligations.LineSplitsIntoTwoTokens := by
  intro before middle after d v hws hmiddle hd hv hword
  simp only [List.forall_mem_append] at hws hword
  obtain ⟨⟨hbefore, hmid⟩, hafter⟩ := hws
  obtain ⟨hdw, hvw⟩ := hword
  calc tokens (before ++ d ++ middle ++ v ++ after)
    _ = tokens (before ++ (d ++ (middle ++ (v ++ after)))) := by simp only [List.append_assoc]
    _ = tokens (d ++ (middle ++ (v ++ after))) := tokens_append_of_whitespace hbefore _
    _ = d :: tokens (middle ++ (v ++ after)) := tokens_append_of_word hd hdw (head?_append_whitespace hmid hmiddle _)
    _ = d :: tokens (v ++ after) := by rw [tokens_append_of_whitespace hmid]
    _ = d :: v :: tokens after := by
      rw [tokens_append_of_word hv hvw fun c hc => hafter c (List.mem_of_mem_head? hc)]
    _ = [d, v] := by rw [tokens_of_whitespace hafter]

/-! ### Comments and blank lines -/

/-- The comment delimiter and what follows it is no content (30_encoding R78). -/
theorem lineContent_append_comment {commentChar : Char} {line : List Char} (h : commentChar ∉ line)
    (comment : List Char) :
    lineContent commentChar (line ++ commentChar :: comment) = lineContent commentChar line := by
  have hline : ∀ c ∈ line, (c != commentChar) = true := fun c hc => bne_iff_ne.mpr fun he => h (he ▸ hc)
  simp [lineContent, List.takeWhile_append_of_pos hline, List.takeWhile_eq_self_iff.mpr hline]

/-- The assembler looks at a line's content alone (30_encoding R78). -/
theorem assembleLine_congr_lineContent {commentChar : Char} {line line' : List Char}
    (h : lineContent commentChar line = lineContent commentChar line') (n : Nat) :
    assembleLine commentChar n line = assembleLine commentChar n line' := by
  simp only [assembleLine, parseLine, h]

/-- A line without a token gives nothing (30_encoding R78). -/
theorem assembleLine_of_tokens_eq_nil {commentChar : Char} {line : List Char}
    (h : tokens (lineContent commentChar line) = []) (n : Nat) :
    assembleLine commentChar n line = .ok { image := [], log := [] } := by
  simp [assembleLine, parseLine, h]

/-- Settles O48: all whitespace has no token, and a comment is no content. -/
theorem commentsAndBlankLinesAreSkipped : Obligations.CommentsAndBlankLinesAreSkipped :=
  fun _ n _ => ⟨fun hws => assembleLine_of_tokens_eq_nil (tokens_of_whitespace hws) n,
    fun comment hnot => assembleLine_congr_lineContent (lineContent_append_comment hnot comment) n⟩

/-! ### Decimal numerals -/

theorem digitValue_of_digit {c : Char} (h : 48 ≤ c.toNat ∧ c.toNat ≤ 57) : digitValue c = some (c.toNat - 48) :=
  if_pos h

theorem digitValue_of_not_digit {c : Char} (h : ¬ (48 ≤ c.toNat ∧ c.toNat ≤ 57)) : digitValue c = none :=
  if_neg h

/-- Digits behind a value already read shift it up by their number (30_encoding R80). -/
theorem decimalFrom_of_digits {ds : List Char} (h : ∀ c ∈ ds, 48 ≤ c.toNat ∧ c.toNat ≤ 57) (value : Nat) :
    decimalFrom value ds =
      some (10 ^ ds.length * value + Nat.ofDigits 10 (ds.reverse.map (fun c => c.toNat - 48))) := by
  induction ds generalizing value with
  | nil => simp [decimalFrom]
  | cons c ds ih =>
    obtain ⟨hc, hds⟩ := List.forall_mem_cons.mp h
    rw [decimalFrom, digitValue_of_digit hc]
    simp only [ih hds, List.reverse_cons, List.map_append, Nat.ofDigits_append, List.length_map, List.length_reverse,
      List.length_cons, List.map_cons, List.map_nil, Nat.ofDigits_singleton]
    congr 1
    ring

/-- A character that is no digit stops the numeral, whatever stands before it. -/
theorem decimalFrom_of_not_digit {ds : List Char} {c : Char} (hmem : c ∈ ds)
    (hc : ¬ (48 ≤ c.toNat ∧ c.toNat ≤ 57)) (value : Nat) : decimalFrom value ds = none := by
  induction ds generalizing value with
  | nil => contradiction
  | cons d ds ih =>
    rw [decimalFrom]
    rcases List.mem_cons.mp hmem with rfl | hmem
    · rw [digitValue_of_not_digit hc]
    · split
      · rfl
      · exact ih hmem _

theorem decimal_eq_decimalFrom {ds : List Char} (h : ds ≠ []) : decimal ds = decimalFrom 0 ds := by
  cases ds with
  | nil => contradiction
  | cons c ds => rfl

/-- A literal that starts with no sign is its numeral (30_encoding R81). -/
theorem operandToken_of_no_sign {ds : List Char} (h : ∀ c ∈ ds, 48 ≤ c.toNat ∧ c.toNat ≤ 57) :
    operandToken ds = (decimal ds).map (fun n => (n : Int)) := by
  unfold operandToken
  split
  · exact absurd (h '-' List.mem_cons_self) (by decide)
  · exact absurd (h '+' List.mem_cons_self) (by decide)
  · rfl

/-- Settles O50: reading digits from 0 gives their value, which the sign leaves or negates, and any other character
stops the numeral. -/
theorem decimalLiteralsHaveTheirValue : Obligations.DecimalLiteralsHaveTheirValue := by
  refine ⟨fun ds n hne hds hn => ?_, fun ds c hmem hc => ?_⟩
  · have hdec : decimal ds = some n := by
      rw [decimal_eq_decimalFrom hne, decimalFrom_of_digits hds, hn, Nat.mul_zero, Nat.zero_add]
    refine ⟨hdec, ?_, ?_, ?_⟩
    · rw [operandToken_of_no_sign hds, hdec]; rfl
    · rw [operandToken, hdec]; rfl
    · rw [operandToken, hdec]; rfl
  · rw [decimal_eq_decimalFrom (List.ne_nil_of_mem hmem), decimalFrom_of_not_digit hmem hc]

end Sys2Proof.Machine
end

section
/-! The bits of an instruction (30_encoding R56 to R58, R63, R65, R67): the encoder's bytes field by field, the
decoder's fields bit by bit, and the bytes a decode depends on. -/

namespace Sys2Proof

open Sys2Proof.Machine

/-! ### The byte tables -/

/-- Byte lists of one length with one number are equal. -/
theorem eq_of_littleEndian_eq {bs bs' : List Byte} (hlen : bs.length = bs'.length)
    (h : littleEndian bs = littleEndian bs') : bs = bs' := by
  rw [← bytesOf_littleEndian bs, ← bytesOf_littleEndian bs', hlen, h]

/-- The encoder writes the bytes of the formats, every padding bit 0 (30_encoding R71). -/
theorem encode_eq_bytesWithPadding (i : Instr) : encode i = bytesWithPadding i 0 := by
  refine eq_of_littleEndian_eq (by rw [encode_length, bytesWithPadding_length]) ?_
  rw [littleEndian_encode]
  cases i with
  | loadConst imm => exact (littleEndian_f5Bytes 14 imm 0).symm
  | memoryWrite addr => exact (littleEndian_f3Bytes 15 addr 0).symm
  | minOp addr => exact (littleEndian_f3Bytes 20 addr 0).symm
  | memoryRead addr => exact (littleEndian_f3Bytes 25 addr 0).symm

/-- Settles O1: the encoder's bytes are the format tables' with padding 0, for each of the four instructions. -/
theorem encodeMatchesByteTables : Obligations.EncodeMatchesByteTables :=
  fun imm addr => ⟨encode_eq_bytesWithPadding (.loadConst imm), encode_eq_bytesWithPadding (.memoryWrite addr),
    encode_eq_bytesWithPadding (.minOp addr), encode_eq_bytesWithPadding (.memoryRead addr)⟩

/-! ### Fields as bits of the instruction word -/

/-- Bit `k` of the little-endian number is bit `k mod 8` of byte `k / 8` (20_memory R42). -/
theorem testBit_littleEndian (bs : List Byte) (k : Nat) :
    (littleEndian bs).testBit k = (bs.getD (k / 8) 0).getLsbD (k % 8) := by
  induction bs generalizing k with
  | nil => simp [littleEndian]
  | cons b bs ih =>
    have hsum : littleEndian (b :: bs) = 2 ^ 8 * littleEndian bs + b.toNat := by rw [littleEndian_cons]; omega
    rw [hsum, Nat.testBit_two_pow_mul_add _ b.isLt]
    split
    · next hk => simp [Nat.div_eq_of_lt hk, Nat.mod_eq_of_lt hk, BitVec.testBit_toNat]
    · next hk =>
      rw [ih, show k / 8 = (k - 8) / 8 + 1 by omega, show k % 8 = (k - 8) % 8 by omega, List.getD_cons_succ]

/-- The word of the `n` bytes at an offset has the image's bits, byte by byte from the offset on. -/
theorem testBit_imageWord {image : List Byte} {pc n k : Nat} (hk : k / 8 < n) :
    (imageWord image pc n).testBit k = (image.getD (pc + k / 8) 0).getLsbD (k % 8) := by
  rw [imageWord, testBit_littleEndian]
  simp [List.getD_eq_getElem?_getD, hk]

/-- The low five bits of the word at an offset are those of the byte there (30_encoding R56). -/
theorem imageWord_mod_32 {image : List Byte} {pc n : Nat} {b : Byte} (hb : image[pc]? = some b) (hn : 0 < n) :
    imageWord image pc n % 32 = b.toNat % 32 := by
  obtain ⟨n, rfl⟩ := Nat.exists_eq_add_of_lt hn
  obtain ⟨hlt, rfl⟩ := List.getElem?_eq_some_iff.mp hb
  rw [imageWord, List.drop_eq_getElem_cons hlt, Nat.zero_add, List.take_succ_cons, littleEndian_cons]
  omega

/-- The word of a decoded instruction carries its opcode, its operand and some padding: the converse of
`decode_of_word` (30_encoding R56, R65). -/
theorem decode_ok_word {image : List Byte} {pc n : Nat} {i : Instr} (h : decode image pc = .ok (i, n)) :
    ∃ k, imageWord image pc n = i.opcode.code + 32 * (i.operand + 2 ^ i.opcode.width * k) := by
  rcases decode_cases image pc with ⟨_, e⟩ | ⟨b, _, _, e⟩ | ⟨b, op, hb, hop, ⟨_, e⟩ | ⟨_, e⟩⟩ <;>
    rw [e] at h <;> cases h
  have hcode : imageWord image pc op.len % 32 = op.code := by
    rw [imageWord_mod_32 hb op.len_pos, ← opcodeField_toNat, code_of_opcodeOfValue hop]
  rw [Opcode.withOperand_opcode, operandField_eq,
    Opcode.withOperand_operand (Nat.mod_lt _ (Nat.two_pow_pos op.width)), ← hcode]
  exact ⟨_, by rw [Nat.mod_add_div, Nat.mod_add_div]⟩

/-- The opcode and the operand of a decoded instruction are fields of its word (30_encoding R56). -/
theorem decode_ok_fields {image : List Byte} {pc n : Nat} {i : Instr} (h : decode image pc = .ok (i, n)) :
    i.opcode.code = imageWord image pc n % 2 ^ 5 ∧
    i.operand = imageWord image pc n / 2 ^ 5 % 2 ^ i.opcode.width := by
  have hc := i.opcode.code_lt
  obtain ⟨k, hk⟩ := decode_ok_word h
  rw [hk]
  constructor
  · omega
  · rw [show 2 ^ 5 = 32 from rfl, ← operandField_eq]
    exact (operandField_word hc i.operand_lt k).symm

/-- Settles O7: opcode and operand are bit fields of the word, whose bits are those of the image's bytes. -/
theorem decodedFieldsAreImageBits : Obligations.DecodedFieldsAreImageBits := by
  intro image pc n i h
  obtain ⟨hlen, hfits⟩ := decode_ok h
  obtain ⟨hcode, hoperand⟩ := decode_ok_fields h
  have hpos := i.opcode.len_pos
  have hwidth := i.opcode.width_add_five_le
  replace hlen : n = i.opcode.len := hlen
  refine ⟨hlen, hfits, fun j hj => ?_, fun j hj => ?_, i.operand_lt⟩
  · rw [hcode, Nat.testBit_mod_two_pow, testBit_imageWord (by omega)]
    simp [hj, Nat.div_eq_of_lt (show j < 8 by omega), Nat.mod_eq_of_lt (show j < 8 by omega)]
  · rw [hoperand, Nat.testBit_mod_two_pow, Nat.testBit_div_two_pow, Nat.add_comm j 5, testBit_imageWord (by omega)]
    simp [hj]

/-! ### What a decode depends on -/

/-- InvalidOpcode is decided by the byte at the offset alone (30_encoding R63). -/
theorem decode_eq_invalidOpcode {image : List Byte} {pc : Nat} {o : OpcodeBits} :
    decode image pc = .error (.invalidOpcode o) ↔
      ∃ b, image[pc]? = some b ∧ opcodeOfValue (opcodeField b).toNat = none ∧ opcodeField b = o := by
  constructor
  · intro h
    rcases decode_cases image pc with ⟨_, e⟩ | ⟨b, hb, hop, e⟩ | ⟨b, op, _, _, ⟨_, e⟩ | ⟨_, e⟩⟩ <;>
      rw [e] at h <;> cases h
    exact ⟨b, hb, hop, rfl⟩
  · rintro ⟨b, hb, hop, rfl⟩
    simp [decode, hb, hop]

/-- Settles O8: the word decides the instruction, and byte 0 decides InvalidOpcode. -/
theorem decodeReadsOnlyItsBytes : Obligations.DecodeReadsOnlyItsBytes := by
  intro image image' pc
  constructor
  · intro i n h hheld
    obtain ⟨rfl, hfits⟩ := decode_ok h
    obtain ⟨k, hk⟩ := decode_ok_word h
    exact decode_of_word (by simp; omega) hk hheld
  · intro o h hbyte
    obtain ⟨b, hb, hop⟩ := decode_eq_invalidOpcode.mp h
    exact decode_eq_invalidOpcode.mpr ⟨b, hbyte.trans hb, hop⟩

/-- Only the values of the opcode table are assigned (30_encoding R59, R60). -/
theorem opcodeOfValue_eq_none {n : Nat} (h : n ∉ [14, 15, 20, 25]) : opcodeOfValue n = none := by
  cases ho : opcodeOfValue n with
  | none => rfl
  | some op =>
    refine absurd ?_ h
    rw [← code_of_opcodeOfValue ho]
    cases op <;> decide

theorem opcodeField_eq_setWidth (b : Byte) : opcodeField b = b.setWidth 5 :=
  BitVec.eq_of_toNat_eq (by rw [opcodeField_toNat, BitVec.toNat_setWidth])

/-- Settles O10: each word is evaluated. -/
theorem specWordsDecode : Obligations.SpecWordsDecode := by
  unfold Obligations.SpecWordsDecode
  decide

end Sys2Proof

namespace Sys2Proof.Machine

/-- An unassigned opcode makes the running engine raise InvalidOpcode (60_exceptions R90). -/
theorem runStep_of_invalidOpcode {s : State} {o : OpcodeBits}
    (h : decode s.cfg.image s.pc = .error (.invalidOpcode o)) :
    runStep s = .next (s.raiseFault (.invalidOpcode o)) := by
  simp [runStep, h]

/-- Settles O5: the opcode is checked before the length, and the engine raises what the decode fails with. -/
theorem unassignedOpcodeFaults : Obligations.UnassignedOpcodeFaults := by
  intro s b hs hb hop
  have hnone : opcodeOfValue (opcodeField b).toNat = none := by
    rw [opcodeField_toNat]
    exact opcodeOfValue_eq_none hop
  have hdec := decode_eq_invalidOpcode.mpr ⟨b, hb, hnone, opcodeField_eq_setWidth b⟩
  exact ⟨hdec, (step_of_engineNext hs).trans (runStep_of_invalidOpcode hdec)⟩

end Sys2Proof.Machine
end

section
/-! The effects of the memory instructions (40_data_movement R86, R87, 41_arithmetic R88) and the frames of all four:
what they leave unchanged (10_state section 2, 20_memory sections 4 and 5). -/

namespace Sys2Proof.Machine

/-! ### One equation per instruction -/

/-- MEMORY_WRITE on both sides of the bound `N` (40_data_movement R87). -/
theorem exec_memoryWrite (addr : Addr) (s : State) :
    exec (.memoryWrite addr) s = .next (if addr.toNat < s.cfg.memCells then
      (s.writeCell addr.toNat s.acc).advance 3 else s.raiseFault (.invalidAddress addr)) := by
  rw [exec, execMemoryWrite]
  split
  · next h => exact withCell_of_lt h _ _
  · next h => exact withCell_of_le (Nat.not_lt.mp h) _ _

/-- MIN_OP on both sides of the bound `N` (41_arithmetic R88). -/
theorem exec_minOp (addr : Addr) (s : State) :
    exec (.minOp addr) s = .next (if addr.toNat < s.cfg.memCells then
      (s.setAcc (unsignedMin (s.readCell addr.toNat) s.acc)).advance 3 else s.raiseFault (.invalidAddress addr)) := by
  rw [exec, execMinOp]
  split
  · next h => exact withCell_of_lt h _ _
  · next h => exact withCell_of_le (Nat.not_lt.mp h) _ _

theorem exec_memoryRead_of_lt {addr : Addr} {s : State} (h : addr.toNat < s.cfg.memCells) :
    exec (.memoryRead addr) s = .next ((s.setAcc (s.readCell addr.toNat)).advance 3) := by
  rw [exec_memoryRead, if_pos h]

theorem exec_memoryWrite_of_lt {addr : Addr} {s : State} (h : addr.toNat < s.cfg.memCells) :
    exec (.memoryWrite addr) s = .next ((s.writeCell addr.toNat s.acc).advance 3) := by
  rw [exec_memoryWrite, if_pos h]

theorem exec_minOp_of_lt {addr : Addr} {s : State} (h : addr.toNat < s.cfg.memCells) :
    exec (.minOp addr) s = .next ((s.setAcc (unsignedMin (s.readCell addr.toNat) s.acc)).advance 3) := by
  rw [exec_minOp, if_pos h]

@[simp] theorem unsignedMin_self (v : Word) : unsignedMin v v = v :=
  BitVec.eq_of_toNat_eq (by rw [unsignedMin_toNat, Nat.min_self])

/-- Settles O13: the constant, with the advance by 5. -/
theorem loadConstCompletes : Obligations.LoadConstCompletes :=
  exec_loadConst

/-- Settles O14: the access is made, with the advance by 3. -/
theorem memoryReadCompletes : Obligations.MemoryReadCompletes :=
  fun _ _ => exec_memoryRead_of_lt

/-- Settles O15: a write in a canonical memory changes what that cell reads, and no other. -/
theorem memoryWriteCompletes : Obligations.MemoryWriteCompletes :=
  fun addr s h hwf => ⟨writeMem s.mem addr.toNat s.acc, exec_memoryWrite_of_lt h, writeMem_wf hwf _ _,
    readMem_writeMem hwf _ _⟩

/-- Settles O16: the selected value is the unsigned minimum. -/
theorem minOpCompletes : Obligations.MinOpCompletes :=
  fun _ _ h => ⟨_, exec_minOp_of_lt h, unsignedMin_toNat _ _⟩

/-! ### Frames -/

/-- No instruction changes the configuration, the ports, IMAGE_MAX_BYTES or the schedule (10_state R38). -/
theorem exec_frame {i : Instr} {s t : State} (h : exec i s = .next t) :
    t.cfg = s.cfg ∧ t.ports = s.ports ∧ t.imageMax = s.imageMax ∧ t.inputs = s.inputs := by
  rcases exec_next_cases h with ⟨v, _, rfl⟩ | ⟨addr, _, _, rfl⟩ | ⟨addr, _, _, rfl⟩ <;> exact ⟨rfl, rfl, rfl, rfl⟩

/-- Settles O22: the accumulator and `pc` are all that a completed instruction other than MEMORY_WRITE sets, and a fault
keeps both. -/
theorem frameOfAccumulatorInstructions : Obligations.FrameOfAccumulatorInstructions := by
  intro i s t hi h
  obtain ⟨hcfg, hports, hmax, hin⟩ := exec_frame h
  rcases exec_next_cases h with ⟨v, _, rfl⟩ | ⟨addr, rfl, _, _⟩ | ⟨addr, _, _, rfl⟩
  · exact ⟨fun _ => rfl, hcfg, hports, hmax, hin, .inl ⟨rfl, rfl⟩⟩
  · exact absurd rfl hi
  · exact ⟨fun _ => rfl, hcfg, hports, hmax, hin, .inr ⟨rfl, rfl, rfl⟩⟩

/-- Settles O23: a completed MEMORY_WRITE sets its cell and `pc`, and a fault keeps both. -/
theorem frameOfMemoryWrite : Obligations.FrameOfMemoryWrite := by
  intro addr s t hwf h
  obtain ⟨hcfg, hports, hmax, hin⟩ := exec_frame h
  rw [exec_memoryWrite] at h
  split at h <;> cases h
  · refine ⟨rfl, hcfg, hports, hmax, hin, fun a ha => ?_, .inl ⟨rfl, rfl⟩⟩
    exact (readMem_writeMem hwf addr.toNat s.acc a).trans (if_neg ha)
  · exact ⟨rfl, hcfg, hports, hmax, hin, fun _ _ => rfl, .inr ⟨rfl, rfl, fun _ => rfl⟩⟩

/-! ### Cells that no address names -/

/-- No instruction changes a cell whose index does not fit 17 bits (20_memory R47). -/
theorem exec_readCell_of_le {i : Instr} {s t : State} (hwf : Memory.wf s.mem = true) (h : exec i s = .next t) {a : Nat}
    (ha : 2 ^ 17 ≤ a) : t.readCell a = s.readCell a := by
  rcases exec_mem h with hm | ⟨addr, _, hm⟩ <;> rw [State.readCell, State.readCell, hm]
  have haddr := addr.isLt
  rw [readMem_writeMem hwf, if_neg (by omega)]

/-- Two memories whose cells below `2^17` read alike. -/
def AgreeBelow (m m' : Memory) : Prop :=
  ∀ a, a < 2 ^ 17 → readMem m a = readMem m' a

theorem AgreeBelow.writeMem {m m' : Memory} (h : AgreeBelow m m') (hwf : Memory.wf m = true)
    (hwf' : Memory.wf m' = true) (addr : Nat) (v : Word) : AgreeBelow (writeMem m addr v) (writeMem m' addr v) :=
  fun a ha => by rw [readMem_writeMem hwf, readMem_writeMem hwf', h a ha]

/-- On memories that agree below `2^17` an instruction answers the same but for the memory, and they agree still
(20_memory R47). -/
theorem exec_agreeBelow (i : Instr) {s t : State} {m : Memory} (hwf : Memory.wf s.mem = true) (hm : Memory.wf m = true)
    (hagree : AgreeBelow m s.mem) (h : exec i s = .next t) :
    ∃ m', exec i { s with mem := m } = .next { t with mem := m' } ∧ AgreeBelow m' t.mem := by
  have hread : ∀ addr : Addr, State.readCell { s with mem := m } addr.toNat = s.readCell addr.toNat :=
    fun addr => hagree addr.toNat addr.isLt
  cases i with
  | loadConst imm => cases h; exact ⟨m, rfl, hagree⟩
  | memoryWrite addr =>
    rw [exec_memoryWrite] at h ⊢
    split at h <;> cases h
    · next hlt => exact ⟨_, by rw [if_pos hlt]; rfl, hagree.writeMem hm hwf _ _⟩
    · next hlt => exact ⟨m, by rw [if_neg hlt]; rfl, hagree⟩
  | minOp addr =>
    rw [exec_minOp] at h ⊢
    rw [hread]
    split at h <;> cases h
    · next hlt => exact ⟨m, by rw [if_pos hlt]; rfl, hagree⟩
    · next hlt => exact ⟨m, by rw [if_neg hlt]; rfl, hagree⟩
  | memoryRead addr =>
    rw [exec_memoryRead] at h ⊢
    rw [hread]
    split at h <;> cases h
    · next hlt => exact ⟨m, by rw [if_pos hlt]; rfl, hagree⟩
    · next hlt => exact ⟨m, by rw [if_neg hlt]; rfl, hagree⟩

/-- Settles O27: an address has 17 bits, so the cells above are neither read nor written. -/
theorem highCellsUnreachable : Obligations.HighCellsUnreachable := by
  intro i s t hwf h
  refine ⟨fun a => exec_readCell_of_le hwf h, fun m hm hagree => ?_⟩
  obtain ⟨m', e, hagree'⟩ := exec_agreeBelow i hwf hm hagree h
  exact ⟨m', e, hagree', fun a => exec_readCell_of_le (s := { s with mem := m }) hm e⟩

end Sys2Proof.Machine
end

section
/-! Instructions one after the other (20_memory R50, 70_reset_and_hazards R117): a cell holds its latest write. -/

namespace Sys2Proof.Machine

theorem readCell_writeCell_self {s : State} (hwf : Memory.wf s.mem = true) (a : Nat) (v : Word) :
    (s.writeCell a v).readCell a = v :=
  (readMem_writeMem hwf a v a).trans (if_pos rfl)

/-- Settles O28: the cell reads the value just written, so MEMORY_READ and MIN_OP give it, and the constant just loaded
is what is written. -/
theorem backToBackDependencies : Obligations.BackToBackDependencies := by
  intro s addr imm hwf hlt
  have hcell := readCell_writeCell_self hwf addr.toNat s.acc
  refine ⟨⟨_, _, _, exec_memoryWrite_of_lt hlt, rfl, rfl, rfl, exec_memoryRead_of_lt hlt, hcell, rfl, rfl, rfl,
    exec_minOp_of_lt hlt, ?_, rfl, rfl, rfl⟩, _, _, exec_loadConst imm s, rfl, rfl, rfl, exec_memoryWrite_of_lt hlt, ?_,
    rfl, rfl, rfl⟩
  · exact (congrArg (unsignedMin · s.acc) hcell).trans (unsignedMin_self s.acc)
  · exact readCell_writeCell_self hwf addr.toNat imm

theorem execAll_wf {is : List Instr} {s t : State} (hwf : Memory.wf s.mem = true) (h : execAll is s = some t) :
    Memory.wf t.mem = true := by
  induction is generalizing s with
  | nil => cases h; exact hwf
  | cons i is ih =>
    obtain ⟨u, hexec, _, hrest⟩ := execAll_cons_eq_some.mp h
    exact ih (exec_wf hwf hexec) hrest

theorem execAll_cfg {is : List Instr} {s t : State} (h : execAll is s = some t) : t.cfg = s.cfg := by
  induction is generalizing s with
  | nil => cases h; rfl
  | cons i is ih =>
    obtain ⟨u, hexec, _, hrest⟩ := execAll_cons_eq_some.mp h
    obtain ⟨hcfg, _⟩ := exec_frame hexec
    exact (ih hrest).trans hcfg

/-- A run of two lists is the run of the second after the first (10_state R32). -/
theorem execAll_append_eq_some {is js : List Instr} {s t : State} :
    execAll (is ++ js) s = some t ↔ ∃ u, execAll is s = some u ∧ execAll js u = some t := by
  induction is generalizing s with
  | nil => simp [execAll]
  | cons i is ih =>
    simp only [List.cons_append, execAll_cons_eq_some, ih]
    tauto

/-- A MEMORY_WRITE after which the engine is RUNNING has put the accumulator into its cell. -/
theorem readCell_of_exec_memoryWrite {addr : Addr} {s t : State} (hwf : Memory.wf s.mem = true)
    (h : exec (.memoryWrite addr) s = .next t) (hrun : t.status = .running) : t.readCell addr.toNat = s.acc := by
  rw [exec_memoryWrite] at h
  split at h <;> cases h
  · exact readCell_writeCell_self hwf addr.toNat s.acc
  · cases hrun

/-- Settles O29: the latest write put the accumulator into the cell, and the instructions after it keep it. -/
theorem cellHoldsLatestWrite : Obligations.CellHoldsLatestWrite := by
  intro is s t addr hwf h
  refine ⟨execAll_readCell_of_notMem hwf h, fun before after his hafter => ?_⟩
  subst his
  obtain ⟨u, hbefore, h⟩ := execAll_append_eq_some.mp h
  obtain ⟨w, hexec, hrun, hrest⟩ := execAll_cons_eq_some.mp h
  have hwf := execAll_wf hwf hbefore
  refine ⟨u, hbefore, ?_⟩
  calc t.readCell addr.toNat
    _ = w.readCell addr.toNat := execAll_readCell_of_notMem (exec_wf hwf hexec) hrest hafter
    _ = u.acc := readCell_of_exec_memoryWrite hwf hexec hrun

/-! ### From the image's bytes -/

/-- Settles O19: the bytes decode to the instruction, which writes its cell, and a run without a write of the cell keeps
it for MEMORY_READ and MIN_OP. -/
theorem memoryWriteFromImage : Obligations.MemoryWriteFromImage := by
  intro s addr padding hs hwf h
  have hdec := decode_of_word (i := .memoryWrite addr) rfl (littleEndian_f3Bytes 15 addr padding) h
  have hstep := step_of_decode_ok hs hdec
  constructor
  · intro hlt
    obtain ⟨m, hexec, hm, hcell⟩ := memoryWriteCompletes addr s hlt hwf
    refine ⟨m, hstep.trans hexec, hcell, fun is t hrun hnot => ?_⟩
    have hread : t.readCell addr.toNat = s.acc :=
      (execAll_readCell_of_notMem hm hrun hnot).trans ((hcell _).trans (if_pos rfl))
    have hltt : addr.toNat < t.cfg.memCells := by rwa [execAll_cfg hrun]
    refine ⟨hread, ?_, ?_⟩
    · rw [memoryReadCompletes addr t hltt, hread]
    · obtain ⟨v, hmin, hv⟩ := minOpCompletes addr t hltt
      exact ⟨v, hmin, by rw [hv, hread]⟩
  · intro hle
    exact hstep.trans (exec_of_memCells_le (by simp) hle)

/-- Settles O20: the bytes decode to the instruction, which takes the minimum or raises InvalidAddress. -/
theorem minOpFromImage : Obligations.MinOpFromImage := by
  intro s addr padding hs h
  have hdec := decode_of_word (i := .minOp addr) rfl (littleEndian_f3Bytes 20 addr padding) h
  rw [step_of_decode_ok hs hdec]
  exact ⟨minOpCompletes addr s, exec_of_memCells_le (by simp)⟩

end Sys2Proof.Machine
end

section
/-! The engine's step as a whole (10_state R27 to R33): that it always answers, what it looks at, what it leaves
unchanged, and that every run ends. -/

namespace Sys2Proof.Machine

/-! ### What the engine does not look at -/

/-- The state with a changed configuration and schedule. -/
def State.mapHost (f : RunConfig → RunConfig) (g : List HostInput → List HostInput) (s : State) : State :=
  { s with cfg := f s.cfg, inputs := g s.inputs }

section
variable {f : RunConfig → RunConfig} (g : List HostInput → List HostInput)
  (hcells : ∀ c, (f c).memCells = c.memCells)
include hcells

/-- Of configuration and schedule an instruction looks at `N` alone. -/
theorem exec_mapHost (i : Instr) (s : State) :
    ∃ t, exec i s = .next t ∧ exec i (s.mapHost f g) = .next (t.mapHost f g) := by
  have hN : (s.mapHost f g).cfg.memCells = s.cfg.memCells := hcells s.cfg
  cases i with
  | loadConst imm => exact ⟨_, rfl, rfl⟩
  | memoryWrite addr =>
    refine ⟨_, exec_memoryWrite addr s, ?_⟩
    rw [exec_memoryWrite, hN]
    split <;> rfl
  | minOp addr =>
    refine ⟨_, exec_minOp addr s, ?_⟩
    rw [exec_minOp, hN]
    split <;> rfl
  | memoryRead addr =>
    refine ⟨_, exec_memoryRead addr s, ?_⟩
    rw [exec_memoryRead, hN]
    split <;> rfl

/-- Of configuration and schedule the running engine looks at the image and `N` alone, and it always answers a next
state (60_exceptions section 5). -/
theorem runStep_mapHost (himage : ∀ c, (f c).image = c.image) (s : State) :
    ∃ t, runStep s = .next t ∧ runStep (s.mapHost f g) = .next (t.mapHost f g) := by
  have hdecode : decode (s.mapHost f g).cfg.image (s.mapHost f g).pc = decode s.cfg.image s.pc :=
    congrArg (decode · s.pc) (himage s.cfg)
  simp only [runStep, hdecode]
  split
  · exact ⟨_, rfl, rfl⟩
  · exact ⟨_, rfl, rfl⟩
  · exact ⟨_, rfl, rfl⟩
  · exact exec_mapHost g hcells _ s

/-- So does the engine's step in every status. -/
theorem engineStep_mapHost (himage : ∀ c, (f c).image = c.image) (s : State) :
    ∃ t, engineStep s = .next t ∧ engineStep (s.mapHost f g) = .next (t.mapHost f g) := by
  by_cases hst : s.status = .running
  · rw [engineStep_running hst, engineStep_running (s := s.mapHost f g) hst]
    exact runStep_mapHost g hcells himage s
  · exact ⟨s, engineStep_of_not_running hst, engineStep_of_not_running (s := s.mapHost f g) hst⟩

end

theorem runStep_total (s : State) : ∃ t, runStep s = .next t :=
  (runStep_mapHost (f := id) id (fun _ => rfl) (fun _ => rfl) s).imp fun _ h => h.1

theorem engineStep_total (s : State) : ∃ t, engineStep s = .next t :=
  (engineStep_mapHost (f := id) id (fun _ => rfl) (fun _ => rfl) s).imp fun _ h => h.1

/-- Settles O40: the engine always answers, and so do a reset and a start. -/
theorem onlyLoadsAreRefused : Obligations.OnlyLoadsAreRefused := by
  intro s hload
  cases hi : s.inputs with
  | nil => rw [step_of_no_input hi]; exact engineStep_total s
  | cons m rest =>
    rw [step_of_input hi]
    cases m with
    | quiet => exact engineStep_total _
    | load c => exact absurd hi (hload c rest)
    | reset d => exact ⟨_, rfl⟩
    | start => exact ⟨_, rfl⟩

/-- Settles O41: the dump range is neither image nor `N`. -/
theorem dumpRangeDoesNotReachRun : Obligations.DumpRangeDoesNotReachRun := by
  intro s t first last hin h
  obtain ⟨t', ht, ht'⟩ := engineStep_mapHost (f := fun c => { c with dumpStart := first, dumpEnd := last }) id
    (fun _ => rfl) (fun _ => rfl) s
  rw [step_of_no_input hin] at h
  cases h.symm.trans ht
  exact (step_of_no_input (s := s.withDumpRange first last) hin).trans ht'

/-- On a quiet move of the host the running engine steps, with the rest of the schedule left (log 2). -/
theorem step_of_quiet {s : State} {rest : List HostInput} (hrun : s.status = .running)
    (hin : s.inputs = .quiet :: rest) : step s = runStep { s with inputs := rest } :=
  (step_of_input hin).trans (engineStep_running hrun)

/-- The running engine steps as well with nothing pending, to the same state but for the schedule. -/
theorem runStep_inputs (s : State) (rest : List HostInput) :
    ∃ t, runStep { s with inputs := [] } = .next t ∧
      runStep { s with inputs := rest } = .next { t with inputs := rest } :=
  runStep_mapHost (f := id) (fun _ => rest) (fun _ => rfl) (fun _ => rfl) { s with inputs := [] }

/-- Settles O11: with a quiet move taken off the schedule the engine steps, and its step does not look at the
schedule. -/
theorem stepRunsDecodedInstruction : Obligations.StepRunsDecodedInstruction := by
  refine ⟨fun s i n hrun hdec _ => ⟨fun hin => ?_, fun rest hin => ?_⟩, fun s rest hrun hin => ?_⟩
  · exact step_of_decode_ok ⟨hrun, hin⟩ hdec
  · exact (step_of_quiet hrun hin).trans (runStep_of_decode_ok hdec)
  · obtain ⟨t, ht, ht'⟩ := runStep_inputs s rest
    have hstep : step { s with inputs := [] } = .next t :=
      (step_of_engineNext (s := { s with inputs := [] }) ⟨hrun, rfl⟩).trans ht
    refine ⟨step_of_input hin, t, hstep, (step_of_quiet hrun hin).trans ht', fun hend => ?_, fun o hdec => ?_,
      fun p hdec => ?_⟩
    · cases ht.symm.trans (runStep_of_length_le hend); rfl
    · cases ht.symm.trans (runStep_of_invalidOpcode hdec); rfl
    · cases ht.symm.trans (runStep_of_truncated hdec); rfl

/-! ### What the engine leaves unchanged -/

/-- The engine changes neither the configuration nor the ports, IMAGE_MAX_BYTES or the schedule (10_state R38). -/
theorem runStep_frame {s t : State} (h : runStep s = .next t) :
    t.cfg = s.cfg ∧ t.ports = s.ports ∧ t.imageMax = s.imageMax ∧ t.inputs = s.inputs := by
  rcases runStep_next_cases h with ⟨_, rfl⟩ | ⟨k, _, rfl⟩ | ⟨i, u, _, rfl, ⟨v, rfl⟩ | ⟨a, _, rfl⟩⟩ <;>
    exact ⟨rfl, rfl, rfl, rfl⟩

theorem engineStep_frame {s t : State} (h : engineStep s = .next t) :
    t.cfg = s.cfg ∧ t.ports = s.ports ∧ t.imageMax = s.imageMax ∧ t.inputs = s.inputs := by
  by_cases hst : s.status = .running
  · exact runStep_frame (engineStep_running hst ▸ h)
  · rw [engineStep_of_not_running hst] at h
    cases h
    exact ⟨rfl, rfl, rfl, rfl⟩

/-- Settles O26: the engine and a start keep all three, a load sets the ports alone, and a reset the configuration. -/
theorem configurationChangesOnlyByHost : Obligations.ConfigurationChangesOnlyByHost := by
  intro s t h
  rcases step_cases h with ⟨_, h⟩ | ⟨rest, _, h⟩ | ⟨c, rest, hin, _, _, rfl⟩ | ⟨d, rest, hin, rfl⟩ | ⟨rest, _, rfl⟩
  · obtain ⟨hcfg, hports, hmax, _⟩ := engineStep_frame h
    exact ⟨fun _ => hcfg, fun _ => hports, hmax⟩
  · obtain ⟨hcfg, hports, hmax, _⟩ := engineStep_frame h
    exact ⟨fun _ => hcfg, fun _ => hports, hmax⟩
  · exact ⟨fun _ => rfl, fun hno => absurd hin (hno c rest), rfl⟩
  · exact ⟨fun hno => absurd hin (hno d rest), fun _ => rfl, rfl⟩
  · exact ⟨fun _ => hostStart_cfg _, fun _ => hostStart_ports _, hostStart_imageMax _⟩

/-- Settles O24: the halt and an executed instruction do not end FAULTED, so the step raised a fault. -/
theorem faultingStepChangesNothingElse : Obligations.FaultingStepChangesNothingElse := by
  intro s t hs h ht
  rw [step_of_engineNext hs] at h
  obtain ⟨hrun, _⟩ := hs
  rcases runStep_next_cases h with ⟨_, rfl⟩ | ⟨k, _, rfl⟩ | ⟨i, u, _, rfl, ⟨v, rfl⟩ | ⟨a, _, rfl⟩⟩
  · simp at ht
  · exact ⟨k, rfl⟩
  · simp [hrun] at ht
  · simp [hrun] at ht

/-! ### Terminal statuses -/

theorem State.terminal_iff (s : State) : s.terminal = true ↔ s.status = .halted ∨ s.status = .faulted := by
  simp [State.terminal]

/-- A terminal state is none that runs or waits for its start (10_state R22). -/
theorem State.status_of_terminal {s : State} (h : s.terminal = true) : s.status ≠ .running ∧ s.status ≠ .idle := by
  rcases s.terminal_iff.mp h with h | h <;> simp [h]

/-- Settles O30: in a terminal status the engine and a start keep the state, and a load reaches the ports alone. -/
theorem terminalStatusIsStable : Obligations.TerminalStatusIsStable := by
  intro s t hterm hno h
  obtain ⟨hrun, hidle⟩ := State.status_of_terminal hterm
  rcases step_cases h with ⟨_, h⟩ | ⟨rest, _, h⟩ | ⟨c, rest, _, _, _, rfl⟩ | ⟨d, rest, hin, _⟩ | ⟨rest, _, rfl⟩
  · rw [engineStep_of_not_running hrun] at h
    cases h
    exact ⟨rfl, rfl, rfl, rfl, rfl, rfl⟩
  · rw [engineStep_of_not_running (s := { s with inputs := rest }) hrun] at h
    cases h
    exact ⟨rfl, rfl, rfl, rfl, rfl, rfl⟩
  · exact ⟨rfl, rfl, rfl, rfl, rfl, rfl⟩
  · exact absurd hin (hno d rest)
  · rw [hostStart_of_not_idle (s := { s with inputs := rest }) hidle]
    exact ⟨rfl, rfl, rfl, rfl, rfl, rfl⟩

theorem stepN_succ {s t : State} (h : step s = .next t) (k : Nat) : stepN (k + 1) s = stepN k t := by
  rw [stepN, h]

/-- A terminal state with no move of the host pending stays as it is (log 1). -/
theorem stepN_of_terminal {s : State} (hterm : s.terminal = true) (hin : s.inputs = []) (k : Nat) :
    stepN k s = .next s := by
  have hstep : step s = .next s :=
    (step_of_no_input hin).trans (engineStep_of_not_running (State.status_of_terminal hterm).1)
  induction k with
  | zero => rfl
  | succ k ih => rw [stepN_succ hstep, ih]

theorem three_le_len (i : Instr) : 3 ≤ i.len := by
  rcases Instr.len_cases i with ⟨_, _, h⟩ | ⟨_, _, h⟩ <;> omega

/-- Every executed instruction uses up at least three of the bytes behind `pc`, so a number of steps beyond a third of
them ends the run (70_reset_and_hazards R115). -/
theorem stepN_terminal {k : Nat} {s : State} (hs : s.engineNext) (hk : (s.cfg.image.length - s.pc) / 3 < k) :
    ∃ t, stepN k s = .next t ∧ t.terminal = true := by
  induction k generalizing s with
  | zero => exact absurd hk (Nat.not_lt_zero _)
  | succ k ih =>
    obtain ⟨t, ht⟩ := runStep_total s
    obtain ⟨hcfg, _, _, hin⟩ := runStep_frame ht
    rw [stepN_succ ((step_of_engineNext hs).trans ht)]
    obtain ⟨hrun, hnone⟩ := hs
    have hstop : t.status = .halted ∨ t.status = .faulted → ∃ t', stepN k t = .next t' ∧ t'.terminal = true :=
      fun h => ⟨t, stepN_of_terminal (t.terminal_iff.mpr h) (hin.trans hnone) k, t.terminal_iff.mpr h⟩
    rcases runStep_pc_status ht with ⟨_, _, hst⟩ | ⟨_, hst⟩ | ⟨i, hdec, hpc, hst⟩
    · exact hstop (.inl hst)
    · exact hstop (.inr hst)
    · have hlen := three_le_len i
      obtain ⟨_, hfits⟩ := decode_ok hdec
      exact ih ⟨hst.trans hrun, hin.trans hnone⟩ (by rw [hcfg, hpc]; omega)

/-- Settles O31: the bound is one more than a third of the bytes behind `pc`. -/
theorem everyRunTerminates : Obligations.EveryRunTerminates :=
  fun _ hs => stepN_terminal hs (Nat.lt_succ_self _)

end Sys2Proof.Machine
end

section
/-! The host's moves (70_reset_and_hazards sections 1, 2 and 5) and the output ports (10_state section 6). -/

namespace Sys2Proof.Machine

/-! ### Reset, start and load -/

theorem step_of_reset {s : State} {d : Draw} {rest : List HostInput} (h : s.inputs = .reset d :: rest) :
    step s = .next (hostReset d { s with inputs := rest }) :=
  step_of_input h

/-- A reset puts the drawn value into each cell that the draw names below `n`, and into no other (10_state R36,
log 4). -/
theorem readMem_drawnMem (n : Nat) (draw : List MemCell) {a : Nat} (ha : a < n) :
    readMem (drawnMem n draw) a = (draw.lookup a).getD Config.unlistedCell := by
  induction draw with
  | nil => rfl
  | cons e rest ih =>
    obtain ⟨b, v⟩ := e
    rw [drawnMem, List.lookup_cons]
    by_cases hab : a = b
    · subst hab
      simp [ha, readMem_writeMem (drawnMem_wf n rest)]
    · have hbeq : (a == b) = false := beq_false_of_ne hab
      rw [hbeq]
      split
      · rw [readMem_writeMem (drawnMem_wf n rest), if_neg hab, ih]
      · exact ih

/-- Settles O36: a reset's next state, with the drawn cells read back. -/
theorem resetStartsFresh : Obligations.ResetStartsFresh :=
  fun s d _ hin => ⟨_, step_of_reset hin, rfl, rfl, rfl, rfl, fun _ => readMem_drawnMem s.ports.memCells d.mem,
    rfl, rfl, rfl, rfl⟩

/-- Settles O37: a reset's next state is made of the draw, the ports, IMAGE_MAX_BYTES and the schedule. -/
theorem resetForgetsOldRun : Obligations.ResetForgetsOldRun := by
  intro s t d rest hs ht hports hmax
  rw [step_of_reset hs, step_of_reset ht]
  simp only [hostReset, hports, hmax]

/-- Settles O38: `start` by status. -/
theorem startRunsOnlyFromIdle : Obligations.StartRunsOnlyFromIdle := by
  intro s rest hin
  rw [step_of_input hin, hostMove]
  exact ⟨fun h => congrArg _ (hostStart_of_idle h), fun h => congrArg _ (hostStart_of_not_idle h)⟩

/-- Settles O39: the four answers of a load rule out each other's conditions. -/
theorem loadNeedsStoppedEngine : Obligations.LoadNeedsStoppedEngine := by
  intro s c rest hin
  rw [step_of_input hin, hostMove]
  rcases hostLoad_cases c { s with inputs := rest } with
    ⟨hst, e⟩ | ⟨hst, hlong, e⟩ | ⟨hst, hfits, hnone, e⟩ | ⟨hst, hfits, hcells, e⟩ <;> rw [e]
  · exact ⟨fun _ => rfl, fun h => absurd hst h, fun h => absurd hst h, fun h => absurd hst h⟩
  · exact ⟨fun h => absurd h hst, fun _ h => absurd h.imageFits (Nat.not_le.mpr hlong), fun _ _ => rfl,
      fun _ h => absurd h (Nat.not_le.mpr hlong)⟩
  · exact ⟨fun h => absurd h hst, fun _ h => absurd h.cellsExist (by omega),
      fun _ h => absurd hfits (Nat.not_le.mpr h), fun _ _ _ => rfl⟩
  · exact ⟨fun h => absurd h hst, fun _ _ => rfl, fun _ h => absurd hfits (Nat.not_le.mpr h),
      fun _ _ h => absurd hcells (by omega)⟩

/-! ### Outcome and ports -/

theorem State.outcome_of_dumpBadAddress_eq_some {s : State} {a : Nat} (hst : s.status = .halted)
    (hbad : s.cfg.dumpBadAddress = some a) : s.outcome = some (.dumpError a) := by
  simp [State.outcome, hst, hbad]

theorem State.outcome_of_faulted {s : State} (hst : s.status = .faulted) : s.outcome = s.fault.map .faulted := by
  simp [State.outcome, hst]

/-- A result is given only by a normal halt, with the accumulator and the dump (70_reset_and_hazards R111). -/
theorem State.outcome_eq_result {s : State} {v : Word} {d : Dump} (h : s.outcome = some (.halted v d)) :
    s.status = .halted ∧ v = s.acc ∧ d = s.dump := by
  rcases s.outcome_cases with ⟨_, e⟩ | ⟨hst, _, e⟩ | ⟨a, _, _, e⟩ | ⟨_, e⟩ <;> rw [e] at h
  · cases h
  · cases h; exact ⟨hst, rfl, rfl⟩
  · cases h
  · simp at h

/-- A dump error is given only by a normal halt (70_reset_and_hazards R113). -/
theorem State.outcome_eq_dumpError {s : State} {a : Nat} (h : s.outcome = some (.dumpError a)) :
    s.status = .halted := by
  rcases s.outcome_cases with ⟨_, e⟩ | ⟨hst, _, e⟩ | ⟨b, hst, _, e⟩ | ⟨_, e⟩ <;> rw [e] at h
  · cases h
  · exact hst
  · exact hst
  · simp at h

/-- Settles O43: the bounds are checked in the order start, end, order, and only after a normal halt. -/
theorem dumpErrorNamesTheBadBound : Obligations.DumpErrorNamesTheBadBound := by
  intro s
  refine ⟨fun hst hle => ?_, fun hst hlt hbad => ?_, fun a => State.outcome_eq_dumpError, fun r hst hr => ?_⟩
  · exact State.outcome_of_dumpBadAddress_eq_some hst (if_pos hle)
  · refine State.outcome_of_dumpBadAddress_eq_some hst ?_
    rw [RunConfig.dumpBadAddress, if_neg (Nat.not_le.mpr hlt)]
    split
    · rfl
    · next hend => exact if_pos (hbad.resolve_left hend)
  · rw [State.outcome_of_faulted hst, hr]; rfl

/-- The invariant gives each terminal status its outcome, and no other status has one (70_reset_and_hazards R111). -/
theorem State.Inv.outcome_isSome {s : State} (hs : s.Inv) : s.outcome.isSome = true ↔ s.terminal = true := by
  rw [State.terminal_iff]
  rcases s.outcome_cases with ⟨hst, e⟩ | ⟨hst, _, e⟩ | ⟨a, hst, _, e⟩ | ⟨hst, e⟩ <;> rw [e]
  · rcases hst with hst | hst <;> simp [hst]
  · simp [hst]
  · simp [hst]
  · have hsome := hs.faultWhileFaulted.mpr hst
    simp [hst, hsome]

/-- The `acc_out` port has a value exactly while HALTED, the accumulator (10_state R35). -/
theorem State.accOut_eq_some {s : State} {v : Word} : s.accOut = some v ↔ s.status = .halted ∧ v = s.acc := by
  by_cases hst : s.status = .halted
  · simp [State.accOut_of_halted hst, hst, eq_comm]
  · simp [State.accOut_of_not_halted hst, hst]

/-- Settles O44: each port follows the outcome. -/
theorem outcomeExactlyWhenTerminal : Obligations.OutcomeExactlyWhenTerminal := by
  intro s hs
  refine ⟨hs.outcome_isSome, fun v d h => ?_, fun v => State.accOut_eq_some, ?_, fun vs => ?_⟩
  · obtain ⟨hst, hacc, _⟩ := State.outcome_eq_result h
    exact ⟨hst, hacc⟩
  · cases h : s.outcome with
    | none => simp [State.accOutValid, h]
    | some o => cases o <;> simp [State.accOutValid, h]
  · cases h : s.outcome with
    | none => simp [State.dumpOut, h]
    | some o => cases o <;> simp [State.dumpOut, h]

theorem FaultKind.code_ne_zero (k : FaultKind) : k.code ≠ 0 := by
  cases k <;> simp [FaultKind.code]

/-- The `fault_kind` port is 0 exactly where there is no fault record (60_exceptions R90). -/
theorem State.faultKindOut_eq_zero {s : State} : s.faultKindOut = 0 ↔ s.fault = none := by
  cases h : s.fault with
  | none => simp [State.faultKindOut, h]
  | some r => simpa [State.faultKindOut, h] using r.kind.code_ne_zero

/-- Settles O45: the ports read the record just raised, and under the invariant there is one exactly while FAULTED. -/
theorem faultPortsReportTheFault : Obligations.FaultPortsReportTheFault := by
  refine ⟨fun s o a => ⟨⟨rfl, rfl⟩, ⟨rfl, rfl⟩, ⟨rfl, rfl⟩, fun k => ⟨rfl, rfl⟩⟩, fun s hs => ?_⟩
  rw [State.faultKindOut_eq_zero, State.statusOut, Ne, ← hs.faultWhileFaulted, ← Option.isNone_iff_eq_none]
  simp

end Sys2Proof.Machine
end
